-- ==== Sys2Proof/Word.lean ====
section
/-!
DEFINITION. The words ASEQ computes with, the six channel names and a record of six like things.
Widths are those of 00_scope.md R6 and 30_encoding.md R91.
-/

namespace Sys2Proof

/-- A byte of the bus output port, and a channel's bus address (R21, R67). -/
abbrev Byte := BitVec 8

/-- A command word, `cmd_word[103:0]` (R91). -/
abbrev CommandWord := BitVec 104

/-- A millisecond time, `W_TIME` = 32 bits (R32, R70). -/
abbrev Time := BitVec 32

/-- A signed step delta, one payload lane (R92). -/
abbrev Delta := BitVec 16

/-- A count of steps left, `W_STEP` = 16 bits unsigned (R22). -/
abbrev Count := BitVec 16

/-- A speed in revolutions per minute, `W_RPM` = 16 bits unsigned (R160). -/
abbrev Rpm := BitVec 16

/-- A step interval in milliseconds, `W_INT` = 16 bits unsigned (R31). -/
abbrev Interval := BitVec 16

/-- A position offset, `W_OFF` = 32 bits two's complement (R24). -/
abbrev Offset := BitVec 32

/-- A waveform phase index, stored in 2 bits (R23). -/
abbrev Phase := BitVec 2

/-- The data of a response, `rsp_data[191:0]` (R61). -/
abbrev RspData := BitVec 192

/-- The six channels, numbered 1 to 6 (R15, R20: "Exactly 6 ChannelStates exist"). -/
inductive Chan where
  | c1 | c2 | c3 | c4 | c5 | c6
  deriving DecidableEq, Repr

/-- Six like things, one for each channel. -/
structure Six (α : Type) where
  v1 : α
  v2 : α
  v3 : α
  v4 : α
  v5 : α
  v6 : α
  deriving DecidableEq, Repr

/-- The thing that belongs to channel `c`. -/
def Six.get {α : Type} (x : Six α) : Chan → α
  | .c1 => x.v1
  | .c2 => x.v2
  | .c3 => x.v3
  | .c4 => x.v4
  | .c5 => x.v5
  | .c6 => x.v6

/-- Replace the thing that belongs to channel `c`. -/
def Six.set {α : Type} (x : Six α) (c : Chan) (a : α) : Six α :=
  match c with
  | .c1 => { x with v1 := a }
  | .c2 => { x with v2 := a }
  | .c3 => { x with v3 := a }
  | .c4 => { x with v4 := a }
  | .c5 => { x with v5 := a }
  | .c6 => { x with v6 := a }

/-- Make the six things from a rule for each channel. -/
def Six.of {α : Type} (f : Chan → α) : Six α :=
  ⟨f .c1, f .c2, f .c3, f .c4, f .c5, f .c6⟩

/-- The six step deltas of a DriveRequest, lane k for channel k (R92 format V). -/
abbrev Lanes := Six Delta

end Sys2Proof
end

