-- ==== Sys2Proof/Syntax.lean ====
section
/-!
DEFINITION. The commands of ASEQ: one constructor for each row of spec/opcode_table.json (30_encoding.md R90, R95).
-/

namespace Sys2Proof

/-- A command (R95). Operands are typed as their formats give them (R92): `chan` is the raw 3-bit field, since 0 and 7
are encodable (R100), and the operand of TORQUE is its one bit. -/
inductive Instr where
  /-- SET_SPEED rpm (format S, R160) -/
  | setSpeed (rpm : Rpm)
  /-- GET_OFFSETS (format N, R161) -/
  | getOffsets
  /-- RESET_OFFSETS (format N, R162) -/
  | resetOffsets
  /-- DRIVE_ONE chan, steps (format C, R180) -/
  | driveOne (chan : BitVec 3) (steps : Delta)
  /-- DRIVE_ALL t1, ..., t6 (format V, R182) -/
  | driveAll (targets : Lanes)
  /-- TICK (format N, R200) -/
  | tick
  /-- START t1, ..., t6 (format V, R201) -/
  | start (targets : Lanes)
  /-- PAUSE (format N, R202) -/
  | pause
  /-- RESUME (format N, R203) -/
  | resume
  /-- STOP (format N, R204) -/
  | stop
  /-- TORQUE enabled (format S, R230) -/
  | torque (enabled : Bool)
  deriving DecidableEq, Repr

end Sys2Proof
end

