-- ==== Sys2Proof/WellFormed.lean ====
section
/-!
DEFINITION. Which commands meet what the source asks of its caller. Every term of `Instr` is encodable, so the one
check left is the precondition "callers must supply rpm > 0" (40_scheduler_waveform_primitives.md R120, 60_exceptions.md
R242). A DRIVE_ONE that is ignored (R181) is well formed: the source recovers from it by ignoring it.
-/

namespace Sys2Proof

/-- The command meets the source's precondition on its caller: a speed is at least 1 (R120, R242). -/
def Instr.wellFormed : Instr → Bool
  | .setSpeed rpm => decide (rpm ≠ 0)
  | .getOffsets => true
  | .resetOffsets => true
  | .driveOne _ _ => true
  | .driveAll _ => true
  | .tick => true
  | .start _ => true
  | .pause => true
  | .resume => true
  | .stop => true
  | .torque _ => true

end Sys2Proof
end

