-- ==== Sys2Proof/Decode.lean ====
section
/-!
DEFINITION. From command words to commands and back (30_encoding.md R91 to R99), and the opcode table of R95 and R96
as data. The decoder is total: every one of the 2^104 words is a command or is rejected by name.
-/

namespace Sys2Proof

/-- Why a command word is illegal (R99). -/
inductive Illegal where
  /-- `op` is 0x0 or 0xC to 0xF -/
  | reservedOp
  /-- `rsv = 1` -/
  | reservedBit
  /-- `chan` is not 0 in a format other than C -/
  | chanNotZero
  /-- a lane that the format fixes at 0 is not 0 -/
  | laneNotZero
  /-- TORQUE with `lane1[15:1]` not 0 -/
  | torqueOperand
  deriving DecidableEq, Repr

/-- What the decoder reads from a word. -/
inductive Decoded where
  | command (i : Instr)
  | illegal (why : Illegal)
  deriving DecidableEq, Repr

/-! ### Fields of a word (R91) -/

/-- `op`, bits 103:100. -/
def opField (w : CommandWord) : BitVec 4 := w.extractLsb' 100 4

/-- `rsv`, bit 99. -/
def rsvField (w : CommandWord) : BitVec 1 := w.extractLsb' 99 1

/-- `chan`, bits 98:96. -/
def chanField (w : CommandWord) : BitVec 3 := w.extractLsb' 96 3

/-- The six payload lanes, lane k at bits 16k-1 : 16(k-1). -/
def laneFields (w : CommandWord) : Lanes where
  v1 := w.extractLsb' 0 16
  v2 := w.extractLsb' 16 16
  v3 := w.extractLsb' 32 16
  v4 := w.extractLsb' 48 16
  v5 := w.extractLsb' 64 16
  v6 := w.extractLsb' 80 16

/-- Six lanes of 0. -/
def noLanes : Lanes := Six.of fun _ => 0

/-- Only lane 1 carries an operand (formats S and C). -/
def lane1Only (a : Delta) : Lanes := { noLanes with v1 := a }

/-! ### Decoding -/

/-- Format N: no operand (R92). -/
def decodeN (chan : BitVec 3) (lanes : Lanes) (i : Instr) : Decoded :=
  if chan ≠ 0 then .illegal .chanNotZero
  else if lanes ≠ noLanes then .illegal .laneNotZero
  else .command i

/-- Format S: one unsigned scalar in lane 1 (R92). -/
def decodeS (chan : BitVec 3) (lanes : Lanes) (i : BitVec 16 → Decoded) : Decoded :=
  if chan ≠ 0 then .illegal .chanNotZero
  else if lanes ≠ lane1Only lanes.v1 then .illegal .laneNotZero
  else i lanes.v1

/-- Format C: channel number and signed scalar in lane 1 (R92). -/
def decodeC (chan : BitVec 3) (lanes : Lanes) (i : BitVec 3 → Delta → Instr) : Decoded :=
  if lanes ≠ lane1Only lanes.v1 then .illegal .laneNotZero
  else .command (i chan lanes.v1)

/-- Format V: six signed lanes (R92). -/
def decodeV (chan : BitVec 3) (lanes : Lanes) (i : Lanes → Instr) : Decoded :=
  if chan ≠ 0 then .illegal .chanNotZero
  else .command (i lanes)

/-- The operand of TORQUE: `lane1[0]`, with `lane1[15:1]` 0 (R95, R230). -/
def decodeTorque (lane1 : BitVec 16) : Decoded :=
  if lane1 = 0 then .command (.torque false)
  else if lane1 = 1 then .command (.torque true)
  else .illegal .torqueOperand

/-- The opcode map (R95), on the fields of a word whose `rsv` bit is 0. -/
def decodeFields (op : BitVec 4) (chan : BitVec 3) (lanes : Lanes) : Decoded :=
  if op = 0x1 then decodeS chan lanes fun rpm => .command (.setSpeed rpm)
  else if op = 0x2 then decodeN chan lanes .getOffsets
  else if op = 0x3 then decodeN chan lanes .resetOffsets
  else if op = 0x4 then decodeC chan lanes .driveOne
  else if op = 0x5 then decodeV chan lanes .driveAll
  else if op = 0x6 then decodeN chan lanes .tick
  else if op = 0x7 then decodeV chan lanes .start
  else if op = 0x8 then decodeN chan lanes .pause
  else if op = 0x9 then decodeN chan lanes .resume
  else if op = 0xA then decodeN chan lanes .stop
  else if op = 0xB then decodeS chan lanes decodeTorque
  else .illegal .reservedOp

/-- The decoder (R95, R99): total on all 104-bit words. -/
def decode (w : CommandWord) : Decoded :=
  if rsvField w ≠ 0 then .illegal .reservedBit
  else decodeFields (opField w) (chanField w) (laneFields w)

/-! ### Encoding -/

/-- Lay the fields out in a word (R91). -/
def packWord (op : BitVec 4) (rsv : BitVec 1) (chan : BitVec 3) (l : Lanes) : CommandWord :=
  op ++ rsv ++ chan ++ l.v6 ++ l.v5 ++ l.v4 ++ l.v3 ++ l.v2 ++ l.v1

/-- The opcode of a command (R95). -/
def opcode : Instr → BitVec 4
  | .setSpeed _ => 0x1
  | .getOffsets => 0x2
  | .resetOffsets => 0x3
  | .driveOne _ _ => 0x4
  | .driveAll _ => 0x5
  | .tick => 0x6
  | .start _ => 0x7
  | .pause => 0x8
  | .resume => 0x9
  | .stop => 0xA
  | .torque _ => 0xB

/-- The word of a command (R92, R95). -/
def encode (i : Instr) : CommandWord :=
  match i with
  | .setSpeed rpm => packWord (opcode i) 0 0 (lane1Only rpm)
  | .getOffsets => packWord (opcode i) 0 0 noLanes
  | .resetOffsets => packWord (opcode i) 0 0 noLanes
  | .driveOne chan steps => packWord (opcode i) 0 chan (lane1Only steps)
  | .driveAll targets => packWord (opcode i) 0 0 targets
  | .tick => packWord (opcode i) 0 0 noLanes
  | .start targets => packWord (opcode i) 0 0 targets
  | .pause => packWord (opcode i) 0 0 noLanes
  | .resume => packWord (opcode i) 0 0 noLanes
  | .stop => packWord (opcode i) 0 0 noLanes
  | .torque enabled => packWord (opcode i) 0 0 (lane1Only (if enabled then 1 else 0))

/-! ### The opcode table as data (R95, R96) -/

/-- The mnemonic of a command, as R95 spells it. -/
def mnemonic : Instr → String
  | .setSpeed _ => "SET_SPEED"
  | .getOffsets => "GET_OFFSETS"
  | .resetOffsets => "RESET_OFFSETS"
  | .driveOne _ _ => "DRIVE_ONE"
  | .driveAll _ => "DRIVE_ALL"
  | .tick => "TICK"
  | .start _ => "START"
  | .pause => "PAUSE"
  | .resume => "RESUME"
  | .stop => "STOP"
  | .torque _ => "TORQUE"

/-- A row of the opcode table: a word `w` selects the command iff `w &&& mask = pattern` (R96). -/
structure TableRow where
  mnemonic : String
  pattern  : CommandWord
  mask     : CommandWord
  deriving DecidableEq, Repr

/-- The opcode table, with the masks of R96. -/
def opcodeTable : List TableRow := [
  ⟨"SET_SPEED",     0x10000000000000000000000000, 0xFFFFFFFFFFFFFFFFFFFFFF0000⟩,
  ⟨"GET_OFFSETS",   0x20000000000000000000000000, 0xFFFFFFFFFFFFFFFFFFFFFFFFFF⟩,
  ⟨"RESET_OFFSETS", 0x30000000000000000000000000, 0xFFFFFFFFFFFFFFFFFFFFFFFFFF⟩,
  ⟨"DRIVE_ONE",     0x40000000000000000000000000, 0xF8FFFFFFFFFFFFFFFFFFFF0000⟩,
  ⟨"DRIVE_ALL",     0x50000000000000000000000000, 0xFF000000000000000000000000⟩,
  ⟨"TICK",          0x60000000000000000000000000, 0xFFFFFFFFFFFFFFFFFFFFFFFFFF⟩,
  ⟨"START",         0x70000000000000000000000000, 0xFF000000000000000000000000⟩,
  ⟨"PAUSE",         0x80000000000000000000000000, 0xFFFFFFFFFFFFFFFFFFFFFFFFFF⟩,
  ⟨"RESUME",        0x90000000000000000000000000, 0xFFFFFFFFFFFFFFFFFFFFFFFFFF⟩,
  ⟨"STOP",          0xA0000000000000000000000000, 0xFFFFFFFFFFFFFFFFFFFFFFFFFF⟩,
  ⟨"TORQUE",        0xB0000000000000000000000000, 0xFFFFFFFFFFFFFFFFFFFFFFFFFE⟩]

/-- What the decoder reads from a word of the opcode table, numbered as the table numbers it: one number with bit 0
its least significant bit, of which the low `nbits` bits are given and the rest are 0 (log 17). -/
def decodeTableWord (nbits w : Nat) : Option Instr :=
  match decode (BitVec.ofNat 104 (w % 2 ^ nbits)) with
  | .command i => some i
  | .illegal _ => none

end Sys2Proof
end

