-- ==== Sys2Proof/Config.lean ====
section
/-!
DEFINITION. What one instance of ASEQ fixes (the parameters of 00_scope.md R6), their constraints, their defaults,
and the one free value of the model.
-/

namespace Sys2Proof

/-- The waveform strategy, fixed per instance (R3). -/
inductive Variant where
  | standard
  | prototype
  deriving DecidableEq, Repr

/-- The channel address scheme, fixed per instance (R3, R76). -/
inductive AddrScheme where
  | direct
  | reversed
  deriving DecidableEq, Repr

/-- The parameters of R6 that are not widths. They are constants of the instance: no step writes them (log 1). -/
structure Config where
  variant     : Variant
  addrScheme  : AddrScheme
  /-- `STEPS_PER_REV` -/
  stepsPerRev : Nat
  /-- `WAVE[0]` to `WAVE[3]` -/
  wave0       : Byte
  wave1       : Byte
  wave2       : Byte
  wave3       : Byte
  strobeBit   : Byte
  addrMask    : Byte
  addrShift   : Nat
  coilMask    : Byte
  coilsOff    : Byte
  idleByte    : Byte
  protoClkBit : Byte
  protoDirBit : Byte
  deriving DecidableEq, Repr

/-- The bytes that hold exactly one bit. -/
def oneBitBytes : List Byte := [0x01, 0x02, 0x04, 0x08, 0x10, 0x20, 0x40, 0x80]

/-- The constraints R6 puts on the parameters. DEDUCED, log 3: `ADDR_MASK` holds the whole 3-bit field at
`ADDR_SHIFT`, which R21 ("bits only inside ADDR_MASK") and R105 (3-bit field, values distinct) need. -/
def Config.valid (k : Config) : Bool :=
  decide (1 ≤ k.stepsPerRev) && decide (k.stepsPerRev ≤ 60000) &&
  decide (k.strobeBit ∈ oneBitBytes) &&
  k.strobeBit &&& k.addrMask == 0 && k.strobeBit &&& k.coilMask == 0 && k.addrMask &&& k.coilMask == 0 &&
  decide (k.addrShift ≤ 5) && (((7 : Byte) <<< k.addrShift) &&& ~~~k.addrMask == 0) &&
  k.wave0 &&& ~~~k.coilMask == 0 && k.wave1 &&& ~~~k.coilMask == 0 &&
  k.wave2 &&& ~~~k.coilMask == 0 && k.wave3 &&& ~~~k.coilMask == 0 &&
  k.coilsOff &&& ~~~k.coilMask == 0 &&
  k.protoClkBit &&& ~~~k.coilMask == 0 && k.protoDirBit &&& ~~~k.coilMask == 0 &&
  k.protoClkBit != k.protoDirBit

/-- The default of every parameter in R6's table. `VARIANT` and `ADDR_SCHEME` have no default there:
DESIGN CHOICE, log 1: STANDARD and DIRECT, the configuration of 95_test_vectors.md. -/
def Config.default : Config where
  variant     := .standard
  addrScheme  := .direct
  stepsPerRev := 48
  wave0       := 0xC0
  wave1       := 0x60
  wave2       := 0x30
  wave3       := 0x90
  strobeBit   := 0x01
  addrMask    := 0x0E
  addrShift   := 1
  coilMask    := 0xF0
  coilsOff    := 0x00
  idleByte    := 0x01
  protoClkBit := 0x10
  protoDirBit := 0x20

/-- FREE VALUE (log 6): the clock sample of draw `n`, where the state lists no coming sample. R71 and U4 let each
`SampleNow()` be any value, so nothing is known of it. -/
opaque Config.freeSample (n : Nat) : Time

end Sys2Proof
end

