-- ==== Sys2Proof/Machine/Address.lean ====
section
/-!
DEFINITION. From a channel to its number and its bus address (40_scheduler_waveform_primitives.md R124,
30_encoding.md R105).
-/

namespace Sys2Proof.Machine

/-- The channel number as a 3-bit value, `c[2:0]`. -/
def chanNumber : Chan → BitVec 3
  | .c1 => 1
  | .c2 => 2
  | .c3 => 3
  | .c4 => 4
  | .c5 => 5
  | .c6 => 6

/-- Three bits in reverse order: bits 2 and 0 exchanged (R105). -/
def reverse3 (n : BitVec 3) : BitVec 3 :=
  n.extractLsb' 0 1 ++ n.extractLsb' 1 1 ++ n.extractLsb' 2 1

/-- The 3-bit address field of a channel under a scheme (R105). -/
def addrFieldOf (scheme : AddrScheme) (c : Chan) : BitVec 3 :=
  match scheme with
  | .direct => chanNumber c
  | .reversed => reverse3 (chanNumber c)

/-- `AddrOf(c)` (R124). -/
def addrOf (k : Config) (c : Chan) : Byte :=
  (addrFieldOf k.addrScheme c).zeroExtend 8 <<< k.addrShift

end Sys2Proof.Machine
end

