-- ==== Sys2Proof/Machine/State.lean ====
section
/-!
DEFINITION. The state of one ASEQ instance as plain data (10_state.md R20 to R34), what may be observed of it
(00_scope.md R13), the inputs its environment gives it (20_memory.md R61, R70; 70_reset_and_hazards.md R270), and its
value after reset (R51).
-/

namespace Sys2Proof.Machine

/-- `CW` or `CCW` (R11, R25). -/
inductive Direction where
  | cw
  | ccw
  deriving DecidableEq, Repr

/-- The AsyncState (R30). There is no fourth value (U15). -/
inductive AsyncState where
  | stopped
  | running
  | paused
  deriving DecidableEq, Repr

/-- The engine's record of a blocking command in progress (R33). -/
inductive Busy where
  | none
  | one (c : Chan)
  | all
  deriving DecidableEq, Repr

/-- A channel record `ch[c]` (R20 to R25). -/
structure Channel where
  address    : Byte
  stepsLeft  : Count
  direction  : Direction
  phaseIndex : Phase
  offset     : Offset
  deriving DecidableEq, Repr

/-- One write on the bus output port (R67). `tick` is the clock sample of the tick the write belongs to (R13): a pulse
carries it, a write of TORQUE and the idle write belong to no tick (R15, log 12). -/
structure BusEvent where
  byte : Byte
  tick : Option Time
  deriving DecidableEq, Repr

/-- One response: `rsp_ok` and `rsp_data` (R64). -/
structure Response where
  ok   : Bool
  data : RspData
  deriving DecidableEq, Repr

/-- Why the machine stops. -/
inductive Fault where
  /-- Raised by SET_SPEED with `rpm = 0` only: the source calls it undefined and R160 and U1 say that a model stops with
  this fault. Safe: the model stops where the hardware may go on. -/
  | speedZero
  deriving DecidableEq, Repr

/-- Why an instruction has no meaning. -/
inductive Refusal where
  /-- Raised by an arm of exec whose instruction has no meaning yet. No arm raises it. Safe: the model stops. -/
  | notModelled (mnemonic : String)
  deriving DecidableEq, Repr

/-- The machine. -/
structure State where
  /-- The parameters of the instance (R6). Constants: no step writes them (log 1). -/
  cfg          : Config
  /-- The six channel records (R20). -/
  ch           : Six Channel
  /-- `async_state` (R30). -/
  asyncState   : AsyncState
  /-- `interval` (R31). -/
  interval     : Interval
  /-- `last_step_time` (R32). -/
  lastStepTime : Time
  /-- `busy` (R33). -/
  busy         : Busy
  /-- `bus_out`, the last byte written (R34). -/
  busOut       : Byte
  /-- The bus trace since reset, oldest first (R67). An observation: no rule reads it. -/
  trace        : List BusEvent
  /-- The responses since reset, oldest first (R13, R64). An observation: no rule reads it. -/
  responses    : List Response
  /-- Input `rst` (R270): its values at the coming steps; none listed is not asserted (log 5). -/
  rstIn        : List Bool
  /-- Inputs `cmd_valid` and `cmd_word` (R61): the words the host presents, in order; each is held until accepted. -/
  cmdIn        : List CommandWord
  /-- Input `now_ms` (R70): what the coming samples of the clock return, in order (log 5). -/
  nowIn        : List Time
  /-- The MODEL's own field, not the spec's: how many free clock samples have been drawn (log 6). -/
  draws        : Nat
  deriving DecidableEq, Repr

/-- A channel record after reset: "created at controller construction with address fixed and all other fields zeroed"
(R51, R270). -/
def Channel.resetOf (k : Config) (c : Chan) : Channel where
  address    := addrOf k c
  stepsLeft  := 0
  direction  := .cw
  phaseIndex := 0
  offset     := 0

/-- The instance with parameters `k` right after hardware reset, with no input listed (R51, R271). -/
def State.resetOf (k : Config) : State where
  cfg          := k
  ch           := Six.of (Channel.resetOf k)
  asyncState   := .stopped
  interval     := 0
  lastStepTime := 0
  busy         := .none
  busOut       := k.idleByte
  trace        := []
  responses    := []
  rstIn        := []
  cmdIn        := []
  nowIn        := []
  draws        := 0

/-- The machine right after reset, with the default parameters (log 1). -/
def State.reset : State := State.resetOf Config.default

end Sys2Proof.Machine
end

