-- ==== Sys2Proof/Machine/Ops.lean ====
section
/-!
DEFINITION. The named operations over the state and the interfaces: channel records, the bus output port, the response
port, the clock input, the command port and reset (20_memory.md, 40_scheduler_waveform_primitives.md section 4,
70_reset_and_hazards.md section 1). ASEQ has no memory (R42) and takes no exceptions (R244), so neither has an operation.
-/

namespace Sys2Proof.Machine

/-- The order in which a tick and TORQUE visit the channels: ascending (R141, R230). -/
def scanOrder : List Chan := [.c1, .c2, .c3, .c4, .c5, .c6]

/-! ### Channel records -/

/-- Write the record of channel `c`. -/
def setChannel (c : Chan) (x : Channel) (s : State) : State := { s with ch := s.ch.set c x }

/-! ### Global registers -/

def setAsync (a : AsyncState) (s : State) : State := { s with asyncState := a }

def setInterval (n : Interval) (s : State) : State := { s with interval := n }

def setLastStepTime (t : Time) (s : State) : State := { s with lastStepTime := t }

def setBusy (b : Busy) (s : State) : State := { s with busy := b }

/-! ### The bus output port -/

/-- `BusWrite(b)`: the byte is registered and appended to the trace (R34, R67). -/
def busWrite (tick : Option Time) (b : Byte) (s : State) : State :=
  { s with busOut := b, trace := s.trace ++ [{ byte := b, tick := tick }] }

/-- `Emit(command)`: strobe asserted, then strobe de-asserted (R133). -/
def emit (tick : Option Time) (command : Byte) (s : State) : State :=
  busWrite tick command (busWrite tick (command ||| s.cfg.strobeBit) s)

/-- `Idle()`: one write of `IDLE_BYTE` (R134). -/
def idle (s : State) : State := busWrite none s.cfg.idleByte s

/-! ### The response port -/

/-- `Respond(ok, data)` (R64). -/
def respond (ok : Bool) (data : RspData) (s : State) : State :=
  { s with responses := s.responses ++ [{ ok := ok, data := data }] }

/-- `rsp_data` of GET_OFFSETS: lane k is the offset of channel k (R64, R161). -/
def packOffsets (s : State) : RspData :=
  s.ch.v6.offset ++ s.ch.v5.offset ++ s.ch.v4.offset ++ s.ch.v3.offset ++ s.ch.v2.offset ++ s.ch.v1.offset

/-! ### The clock input -/

/-- `SampleNow()`: the next listed sample, or a free value where none is listed (R70, R71, log 6). -/
def sampleNow (s : State) : Time × State :=
  match s.nowIn with
  | [] => (Config.freeSample s.draws, { s with draws := s.draws + 1 })
  | now :: rest => (now, { s with nowIn := rest })

/-! ### The command port -/

/-- Output `cmd_ready`: no command is in progress (R62). -/
def cmdReady (s : State) : Bool := decide (s.busy = .none)

/-! ### The status output -/

/-- The encoding of the AsyncState (R30). -/
def asyncCode : AsyncState → BitVec 2
  | .stopped => 0
  | .running => 1
  | .paused => 2

/-- Output `async_state_o` (R73). -/
def asyncStateOut (s : State) : BitVec 2 := asyncCode s.asyncState

/-- The encoding of a direction (R25). -/
def directionCode : Direction → BitVec 1
  | .cw => 0
  | .ccw => 1

/-! ### Reset -/

/-- Hardware reset (R270, R271): every piece of state takes its reset value, no bus write and no response is made, and a
command in progress is abandoned. The parameters and the inputs still to come stay, and so does the count of free draws;
the two observation lists start again, since R67 counts the trace from reset (log 9). -/
def hardReset (s : State) : State :=
  { State.resetOf s.cfg with rstIn := s.rstIn, cmdIn := s.cmdIn, nowIn := s.nowIn, draws := s.draws }

/-- The value of `rst` at this step, and the state with that value consumed (R270, log 5). -/
def takeRst (s : State) : Bool × State :=
  match s.rstIn with
  | [] => (false, s)
  | r :: rest => (r, { s with rstIn := rest })

end Sys2Proof.Machine
end

