-- ==== Sys2Proof/Machine/Operands.lean ====
section
/-!
DEFINITION. The operand forms of the commands: a channel number (format C), a signed step delta normalised into a
channel record (formats C and V), and a speed (format S). 30_encoding.md R92, R100;
40_scheduler_waveform_primitives.md R120, R138.
-/

namespace Sys2Proof.Machine

/-- The channel a 3-bit channel number names: none for 0 and 7, "channel number outside [1,6]" (R100, R181). -/
def chanOfNumber (n : BitVec 3) : Option Chan :=
  if n = 1 then some .c1
  else if n = 2 then some .c2
  else if n = 3 then some .c3
  else if n = 4 then some .c4
  else if n = 5 then some .c5
  else if n = 6 then some .c6
  else none

/-- `abs(delta)` as a step count; `abs(-32768)` is 32768, which fits (R9, R138). -/
def magnitude (delta : Delta) : Count := BitVec.ofNat 16 delta.toInt.natAbs

/-- The direction after a load: CW for a positive delta, CCW for a negative one, unchanged for 0 (R138). -/
def loadDirection (delta : Delta) (before : Direction) : Direction :=
  if 0 < delta.toInt then .cw else if delta.toInt < 0 then .ccw else before

/-- A channel record after `Load` (R138). -/
def loadChannel (delta : Delta) (x : Channel) : Channel :=
  { x with stepsLeft := magnitude delta, direction := loadDirection delta x.direction }

/-- `Load(c, delta)` (R138). -/
def load (c : Chan) (delta : Delta) (s : State) : State := setChannel c (loadChannel delta (s.ch.get c)) s

/-- `for c in 1..6: Load(c, tc)` (R182, R201). -/
def loadAll (targets : Lanes) (s : State) : State := scanOrder.foldl (fun s c => load c (targets.get c) s) s

/-- `IntervalOf(rpm)`: integer divisions, left to right (R120). Its caller tests `rpm = 0` first. -/
def intervalOf (k : Config) (rpm : Rpm) : Interval := BitVec.ofNat 16 (60000 / k.stepsPerRev / rpm.toNat)

end Sys2Proof.Machine
end

