-- ==== Sys2Proof/Machine/Flags.lean ====
section
/-!
DEFINITION. The conditions the commands test. ASEQ has no status flags (10_state.md R41); its only condition result is
`rsp_ok`, and what it decides by are the gate (40_scheduler_waveform_primitives.md R122), whether a channel is active
(R15) and whether all are done (R140).
-/

namespace Sys2Proof.Machine

/-- `MayStep(now, last, interval)`: modular difference, unsigned comparison (R122). -/
def mayStep (now last : Time) (interval : Interval) : Bool := decide (interval.toNat ≤ (now - last).toNat)

/-- The gate as the state sets it (R183). -/
def gateOpen (now : Time) (s : State) : Bool := mayStep now s.lastStepTime s.interval

/-- Channel `c` is active: `steps_left > 0` (R15). -/
def active (s : State) (c : Chan) : Bool := decide (0 < (s.ch.get c).stepsLeft.toNat)

/-- `AllDone()` (R140). -/
def allDone (s : State) : Bool := scanOrder.all fun c => !active s c

/-- `rsp_ok` of PAUSE and RESUME: they fail in Stopped only (R202, R203, R243). -/
def transitionOk (a : AsyncState) : Bool :=
  match a with
  | .stopped => false
  | .running => true
  | .paused => true

end Sys2Proof.Machine
end

