-- ==== Sys2Proof/Machine/Waveform.lean ====
section
/-!
DEFINITION. The waveform generator, the pulse and the tick (40_scheduler_waveform_primitives.md R130 to R141).
-/

namespace Sys2Proof.Machine

/-- `WAVE_LEN` (R6): 4 when STANDARD, 2 when PROTOTYPE. -/
def waveLen (k : Config) : Nat :=
  match k.variant with
  | .standard => 4
  | .prototype => 2

/-- `WAVE[i]` (R107). -/
def wave (k : Config) (i : Phase) : Byte :=
  if i = 0 then k.wave0 else if i = 1 then k.wave1 else if i = 2 then k.wave2 else k.wave3

/-- The new phase index: one up for CW and one down for CCW, modulo the waveform length (R23, R130, R131). -/
def nextIndex (k : Config) (p : Phase) (d : Direction) : Phase :=
  match k.variant, d with
  | .standard, .cw => BitVec.ofNat 2 ((p.toNat + 1) % 4)
  | .standard, .ccw => BitVec.ofNat 2 ((p.toNat + 3) % 4)
  | .prototype, _ => BitVec.ofNat 2 ((p.toNat + 1) % 2)

/-- The coil field of the PROTOTYPE variant (R108, R131). -/
def protoPattern (k : Config) (newIndex : Phase) (d : Direction) : Byte :=
  (if newIndex = 1 then k.protoClkBit else 0) ||| (if d = .ccw then k.protoDirBit else 0)

/-- The coil pattern at the new index (R130, R131). -/
def patternOf (k : Config) (newIndex : Phase) (d : Direction) : Byte :=
  match k.variant with
  | .standard => wave k newIndex
  | .prototype => protoPattern k newIndex d

/-- `NextPhase(p, d)`: the new index and its coil pattern; a pure function of its arguments (R130 to R132). -/
def nextPhase (k : Config) (p : Phase) (d : Direction) : Phase × Byte :=
  (nextIndex k p d, patternOf k (nextIndex k p d) d)

/-- The offset after one pulse: +1 for CW, -1 for CCW, with wrap-around (R24, R139). -/
def offsetAfter (d : Direction) (offset : Offset) : Offset :=
  match d with
  | .cw => offset + 1
  | .ccw => offset - 1

/-- A channel record after one pulse (R136). -/
def pulsedChannel (k : Config) (x : Channel) : Channel :=
  { x with
    phaseIndex := (nextPhase k x.phaseIndex x.direction).1
    stepsLeft := x.stepsLeft - 1
    offset := offsetAfter x.direction x.offset }

/-- The command byte of a channel's next pulse (R102, R136). -/
def pulseByte (k : Config) (x : Channel) : Byte := (nextPhase k x.phaseIndex x.direction).2 ||| x.address

/-- `Pulse(c)` in the tick of sample `now` (R136). Every caller tests `steps_left > 0` first. -/
def pulse (now : Time) (c : Chan) (s : State) : State :=
  setChannel c (pulsedChannel s.cfg (s.ch.get c)) (emit (some now) (pulseByte s.cfg (s.ch.get c)) s)

/-- One turn of the loop of `TickBody`: pulse the channel if it is active (R141). -/
def pulseIfActive (now : Time) (s : State) (c : Chan) : State := if active s c then pulse now c s else s

/-- `TickBody(now)` (R141). -/
def tickBody (now : Time) (s : State) : State := scanOrder.foldl (pulseIfActive now) (setLastStepTime now s)

end Sys2Proof.Machine
end

