-- ==== Sys2Proof/Machine/Async.lean ====
section
/-!
DEFINITION. The asynchronous drive commands and the state machine (43_async_commands.md).
-/

namespace Sys2Proof.Machine

/-- The end of a tick of TICK: if no channel is active any more the drive stops and the bus is idled (R200). -/
def stopIfDone (s : State) : State := if allDone s then idle (setAsync .stopped s) else s

/-- What TICK does while Running: one clock sample, and with the gate open one tick (R200). -/
def tickRunning (s : State) : State :=
  if gateOpen (sampleNow s).1 (sampleNow s).2 then stopIfDone (tickBody (sampleNow s).1 (sampleNow s).2)
  else (sampleNow s).2

/-- TICK (R200): nothing but the response unless Running. -/
def execTick (s : State) : Host.Outcome State Fault Refusal :=
  match s.asyncState with
  | .running => .next (respond true 0 (tickRunning s))
  | .paused => .next (respond true 0 s)
  | .stopped => .next (respond true 0 s)

/-- START t1, ..., t6 (R201): accepted in every state (C6). -/
def execStart (targets : Lanes) (s : State) : Host.Outcome State Fault Refusal :=
  .next (respond true 0 (setAsync .running (loadAll targets s)))

/-- Where PAUSE leaves the AsyncState (R202). -/
def afterPause : AsyncState → AsyncState
  | .running => .paused
  | .paused => .paused
  | .stopped => .stopped

/-- PAUSE (R202). -/
def execPause (s : State) : Host.Outcome State Fault Refusal :=
  .next (respond (transitionOk s.asyncState) 0 (setAsync (afterPause s.asyncState) s))

/-- Where RESUME leaves the AsyncState (R203). -/
def afterResume : AsyncState → AsyncState
  | .running => .running
  | .paused => .running
  | .stopped => .stopped

/-- RESUME (R203). -/
def execResume (s : State) : Host.Outcome State Fault Refusal :=
  .next (respond (transitionOk s.asyncState) 0 (setAsync (afterResume s.asyncState) s))

/-- STOP (R204). -/
def execStop (s : State) : Host.Outcome State Fault Refusal := .next (respond true 0 (setAsync .stopped s))

end Sys2Proof.Machine
end

