-- ==== Sys2Proof/Machine/Configure.lean ====
section
/-!
DEFINITION. The configuration and offset commands (41_config_offset_commands.md).
-/

namespace Sys2Proof.Machine

/-- SET_SPEED rpm (R160). `rpm = 0` is undefined and stops the model with `speedZero` (R242, U1). -/
def execSetSpeed (rpm : Rpm) (s : State) : Host.Outcome State Fault Refusal :=
  if rpm = 0 then .fault .speedZero else .next (respond true 0 (setInterval (intervalOf s.cfg rpm) s))

/-- GET_OFFSETS (R161). -/
def execGetOffsets (s : State) : Host.Outcome State Fault Refusal := .next (respond true (packOffsets s) s)

/-- `ch[c].offset <- 0` (R162). -/
def clearOffset (s : State) (c : Chan) : State := setChannel c { s.ch.get c with offset := 0 } s

/-- RESET_OFFSETS (R162). -/
def execResetOffsets (s : State) : Host.Outcome State Fault Refusal :=
  .next (respond true 0 (scanOrder.foldl clearOffset s))

end Sys2Proof.Machine
end

