-- ==== Sys2Proof/Machine/Drive.lean ====
section
/-!
DEFINITION. The blocking drive commands and the engine that carries them out (42_blocking_drive_commands.md). R183 cuts
each into atomic steps: the acceptance (the meaning below), then polls, then the completion (`engine`).
-/

namespace Sys2Proof.Machine

/-- DRIVE_ONE chan, steps, at its acceptance (R180, R183): a request for no channel or of no steps is ignored and
answered at once (R181); any other is loaded and the engine is set to work. -/
def execDriveOne (chan : BitVec 3) (steps : Delta) (s : State) : Host.Outcome State Fault Refusal :=
  match chanOfNumber chan with
  | none => .next (respond true 0 s)
  | some c => if steps = 0 then .next (respond true 0 s) else .next (setBusy (.one c) (load c steps s))

/-- DRIVE_ALL t1, ..., t6, at its acceptance (R182, R183). -/
def execDriveAll (targets : Lanes) (s : State) : Host.Outcome State Fault Refusal :=
  .next (setBusy .all (loadAll targets s))

/-- The tick of a DRIVE_ONE: the sample is recorded and only the commanded channel is pulsed (R142, R180). -/
def tickOne (c : Chan) (now : Time) (s : State) : State := pulse now c (setLastStepTime now s)

/-- One poll (R183): one clock sample, and a tick if the gate is open. -/
def poll (tick : Time → State → State) (s : State) : State :=
  if gateOpen (sampleNow s).1 (sampleNow s).2 then tick (sampleNow s).1 (sampleNow s).2 else (sampleNow s).2

/-- The completion of a blocking command: `Idle()`, `busy <- NONE`, `Respond(1, 0)` (R180, R182, R183). -/
def complete (s : State) : State := respond true 0 (setBusy .none (idle s))

/-- One step of the engine while a blocking command is in progress (R183). -/
def engine (s : State) : State :=
  match s.busy with
  | .none => s
  | .one c => if active s c then poll (tickOne c) s else complete s
  | .all => if allDone s then complete s else poll tickBody s

end Sys2Proof.Machine
end

