-- ==== Sys2Proof/Machine/Torque.lean ====
section
/-!
DEFINITION. The torque command (44_torque_command.md).
-/

namespace Sys2Proof.Machine

/-- The coil pattern TORQUE writes for a channel: its pattern at the current index, or all coils off (R230, R231). -/
def torquePattern (k : Config) (enabled : Bool) (x : Channel) : Byte :=
  if enabled then wave k x.phaseIndex else k.coilsOff

/-- The strobe pair TORQUE writes for channel `c` (R230). -/
def torqueChannel (enabled : Bool) (s : State) (c : Chan) : State :=
  emit none (torquePattern s.cfg enabled (s.ch.get c) ||| (s.ch.get c).address) s

/-- The per-channel writes of TORQUE: six strobe pairs when STANDARD, none when PROTOTYPE (R230). -/
def torqueWrites (enabled : Bool) (s : State) : State :=
  match s.cfg.variant with
  | .standard => scanOrder.foldl (torqueChannel enabled) s
  | .prototype => s

/-- TORQUE enabled (R230). -/
def execTorque (enabled : Bool) (s : State) : Host.Outcome State Fault Refusal :=
  .next (respond true 0 (idle (torqueWrites enabled s)))

end Sys2Proof.Machine
end

