-- ==== Sys2Proof/Machine/Dispatch.lean ====
section
/-!
DEFINITION. From each command to its meaning, one arm per constructor of Instr (30_encoding.md R95).
-/

namespace Sys2Proof.Machine

/-- The meaning of an accepted command. -/
def exec (i : Instr) (s : State) : Host.Outcome State Fault Refusal :=
  match i with
  | .setSpeed rpm => Sys2Proof.Machine.execSetSpeed rpm s
  | .getOffsets => Sys2Proof.Machine.execGetOffsets s
  | .resetOffsets => Sys2Proof.Machine.execResetOffsets s
  | .driveOne chan steps => Sys2Proof.Machine.execDriveOne chan steps s
  | .driveAll targets => Sys2Proof.Machine.execDriveAll targets s
  | .tick => Sys2Proof.Machine.execTick s
  | .start targets => Sys2Proof.Machine.execStart targets s
  | .pause => Sys2Proof.Machine.execPause s
  | .resume => Sys2Proof.Machine.execResume s
  | .stop => Sys2Proof.Machine.execStop s
  | .torque enabled => Sys2Proof.Machine.execTorque enabled s

end Sys2Proof.Machine
end

