-- ==== Sys2Proof/Machine/Accept.lean ====
section
/-!
DEFINITION. The command port at work: accepting the word the host presents, and what a step does outside reset
(20_memory.md R62 to R64, 30_encoding.md R99, 42_blocking_drive_commands.md R183).
-/

namespace Sys2Proof.Machine

/-- Accept a command word: a command is executed, an illegal word does nothing and is answered `Respond(0, 0)`
(R62, R99). -/
def accept (w : CommandWord) (s : State) : Host.Outcome State Fault Refusal :=
  match decode w with
  | .command i => exec i s
  | .illegal _ => .next (respond false 0 s)

/-- What a step does while `rst` is low: with no command in progress the next word the host presents is accepted, or
the block waits if there is none (R13, R62, log 18); with one in progress the engine takes its step and the port accepts
nothing (R62, R183). -/
def advance (s : State) : Host.Outcome State Fault Refusal :=
  if cmdReady s then
    match s.cmdIn with
    | [] => .next s
    | w :: rest => accept w { s with cmdIn := rest }
  else .next (engine s)

/-- The state in which the host presents word `w` next and the port is ready for it, at a step with `rst` low. -/
def present (w : CommandWord) (s : State) : State :=
  { s with busy := .none, rstIn := false :: s.rstIn, cmdIn := w :: s.cmdIn }

end Sys2Proof.Machine
end

