-- ==== Sys2Proof/Machine/Step.lean ====
section
/-!
DEFINITION. One step of the machine (R62, R183, R270) and how the host's words reach it.
-/

namespace Sys2Proof.Machine

/-- One step: with `rst` asserted the block is reset (R270), else it advances by one command, one poll or one completion
(R183). -/
def step (s : State) : Host.Outcome State Fault Refusal :=
  match takeRst s with
  | (true, s') => .next (hardReset s')
  | (false, s') => advance s'

/-- `s` with the command word whose low `nbits` bits are those of `w`, and whose other bits are 0, presented by the host
so that the next step accepts it (log 16, log 17). -/
def State.withFetchWord (s : State) (nbits w : Nat) : State := present (BitVec.ofNat 104 (w % 2 ^ nbits)) s

end Sys2Proof.Machine
end

