-- ==== Sys2Proof/Safety.lean ====
section
/-!
DEFINITION. The words claims are stated in: legal states (10_state.md R45), the discipline of the bus (R48, R102, R103),
illegal words in the spec's own terms (30_encoding.md R99), pulses counted on the bus (R206), and clocks that keep
opening the gate (R185).
-/

namespace Sys2Proof.Machine

/-! ### Legal states -/

/-- What R45 says of channel `c` in every reachable state. -/
def ChannelLegal (k : Config) (c : Chan) (x : Channel) : Prop :=
  x.stepsLeft.toNat ≤ 32768 ∧ x.phaseIndex.toNat < waveLen k ∧ x.address = addrOf k c

/-- The invariant of R45, on an instance whose parameters meet R6. -/
def Legal (s : State) : Prop :=
  s.cfg.valid = true ∧ (∀ c, ChannelLegal s.cfg c (s.ch.get c)) ∧ asyncStateOut s ≠ 3

/-! ### The bus -/

/-- A command byte: a coil pattern and a channel's address (R102). -/
def CommandByte (k : Config) (b : Byte) : Prop :=
  ∃ (p : Byte) (c : Chan), p &&& ~~~k.coilMask = 0 ∧ b = p ||| addrOf k c

/-- A sequence of bus bytes made of strobe pairs of command bytes and of single idle bytes, and of nothing else
(R103, R133, R134). -/
inductive WellStrobed (k : Config) : List Byte → Prop where
  | empty : WellStrobed k []
  | idle (l : List Byte) : WellStrobed k l → WellStrobed k (l ++ [k.idleByte])
  | pair (l : List Byte) (b : Byte) :
      WellStrobed k l → CommandByte k b → WellStrobed k (l ++ [b ||| k.strobeBit, b])

/-- The bytes of a trace. -/
def traceBytes (l : List BusEvent) : List Byte := l.map BusEvent.byte

/-- The discipline of the bus: the trace is well strobed, and `bus_out` is the last byte written, or `IDLE_BYTE` where
nothing has been written since reset (R34, R67, R103). -/
def BusDisciplined (s : State) : Prop :=
  WellStrobed s.cfg (traceBytes s.trace) ∧ s.busOut = ((traceBytes s.trace).getLast?).getD s.cfg.idleByte

/-- The bus shows `IDLE_BYTE`, or the de-asserted command byte of a channel at its present phase index (R48). -/
def BusAtRest (s : State) : Prop :=
  s.busOut = s.cfg.idleByte ∨
  ∃ c d, s.busOut = patternOf s.cfg (s.ch.get c).phaseIndex d ||| (s.ch.get c).address

/-- The strobe pair of a tick's pulse (R133, R136). -/
def pulseEvents (k : Config) (now : Time) (x : Channel) : List BusEvent :=
  [⟨pulseByte k x ||| k.strobeBit, some now⟩, ⟨pulseByte k x, some now⟩]

/-- Whether a bus event is the de-asserted write of a pulse of channel `c`: it belongs to a tick, its strobe bit is
clear and its address field is the channel's. Each pulse makes exactly one such write (R136). -/
def isPulseOf (k : Config) (c : Chan) (e : BusEvent) : Bool :=
  e.tick.isSome && e.byte &&& k.strobeBit == 0 && e.byte &&& k.addrMask == addrOf k c

/-- How many pulses of channel `c` a trace shows. -/
def pulsesOn (k : Config) (c : Chan) (l : List BusEvent) : Nat := l.countP (isPulseOf k c)

/-! ### Channel records before and after -/

/-- `y` is the channel record `x` after one pulse, as R136 says it: one step fewer left, the offset one further in the
channel's direction with wrap-around, the phase index one further modulo the waveform length, and nothing else. -/
def Stepped (k : Config) (x y : Channel) : Prop :=
  y.stepsLeft.toNat + 1 = x.stepsLeft.toNat ∧
  y.offset.toInt = Int.bmod (x.offset.toInt + if x.direction = .cw then 1 else -1) (2 ^ 32) ∧
  y.phaseIndex.toNat = (x.phaseIndex.toNat + if x.direction = .cw then 1 else waveLen k - 1) % waveLen k ∧
  y.direction = x.direction ∧ y.address = x.address

/-- `y` is the channel record `x` after `Load` of `delta`, as R138 says it. -/
def Loaded (delta : Delta) (x y : Channel) : Prop :=
  y.stepsLeft.toNat = delta.toInt.natAbs ∧
  (0 < delta.toInt → y.direction = .cw) ∧ (delta.toInt < 0 → y.direction = .ccw) ∧
  (delta.toInt = 0 → y.direction = x.direction) ∧
  y.phaseIndex = x.phaseIndex ∧ y.offset = x.offset ∧ y.address = x.address

/-- `c` is active in `s`, said on the count itself (R15). -/
def HasSteps (s : State) (c : Chan) : Prop := 0 < (s.ch.get c).stepsLeft.toNat

/-- What a tick of all channels leaves (R141): each active channel stepped once, each other as it was, and the strobe
pairs of the active channels on the bus in ascending order. -/
def TickedAll (now : Time) (s t : State) : Prop :=
  (∀ c, HasSteps s c → Stepped s.cfg (s.ch.get c) (t.ch.get c)) ∧
  (∀ c, ¬ HasSteps s c → t.ch.get c = s.ch.get c) ∧
  t.lastStepTime = now

/-- The bus events of a tick of all channels, in ascending order of the active channels (R141). -/
def tickEvents (now : Time) (s : State) : List BusEvent :=
  ([Chan.c1, .c2, .c3, .c4, .c5, .c6].filter fun c => decide (0 < (s.ch.get c).stepsLeft.toNat)).flatMap
    fun c => pulseEvents s.cfg now (s.ch.get c)

/-- What the bus shows after the events `l` (R34): the byte of the last, or `before` where there is none. -/
def lastByte (l : List BusEvent) (before : Byte) : Byte := ((l.getLast?).map BusEvent.byte).getD before

/-! ### Illegal words, as R99 words them -/

/-- The opcodes of formats N, S, C and V (R95). -/
def formatN : List (BitVec 4) := [0x2, 0x3, 0x6, 0x8, 0x9, 0xA]
def formatS : List (BitVec 4) := [0x1, 0xB]
def formatC : List (BitVec 4) := [0x4]
def formatV : List (BitVec 4) := [0x5, 0x7]

/-- The conditions of R99, each on the word's own bits. -/
def IllegalWord (w : CommandWord) : Prop :=
  let op := w.extractLsb' 100 4
  let chan := w.extractLsb' 96 3
  op = 0x0 ∨ 0xC ≤ op.toNat ∨
  w.getLsbD 99 = true ∨
  (op ∉ formatC ∧ chan ≠ 0) ∨
  (op ∈ formatN ∧ w.extractLsb' 0 96 ≠ 0) ∨
  (op ∈ formatS ++ formatC ∧ w.extractLsb' 16 80 ≠ 0) ∨
  (op = 0xB ∧ w.extractLsb' 1 15 ≠ 0)

/-! ### The inputs -/

/-- `rst` is low at this step. -/
def RstLow (s : State) : Prop := s.rstIn.head? ≠ some true

/-- A clock each of whose samples opens the gate, given the last tick and the interval (R185). -/
def Paced (interval : Interval) : Time → List Time → Prop
  | _, [] => True
  | last, now :: rest => mayStep now last interval = true ∧ Paced interval now rest

/-! ### Counting -/

/-- 1 while a blocking command is in progress, else 0 (R33). -/
def inProgress (s : State) : Nat := if s.busy = .none then 0 else 1

/-- The offset channel `x` has once its remaining steps are issued: R24 and R136 move it by one for each. -/
def offsetAtEnd (x : Channel) : Offset :=
  match x.direction with
  | .cw => x.offset + x.stepsLeft.zeroExtend 32
  | .ccw => x.offset - x.stepsLeft.zeroExtend 32

/-- The phase index channel `x` has once its remaining steps are issued (R47). -/
def phaseAtEnd (k : Config) (x : Channel) : Int :=
  match x.direction with
  | .cw => (x.phaseIndex.toNat + x.stepsLeft.toNat : Int) % waveLen k
  | .ccw => (x.phaseIndex.toNat - x.stepsLeft.toNat : Int) % waveLen k

/-- The commands that neither load a channel nor zero the offsets (R52). -/
def keepsRequest : Instr → Bool
  | .setSpeed _ => true
  | .getOffsets => true
  | .resetOffsets => false
  | .driveOne _ _ => false
  | .driveAll _ => false
  | .tick => true
  | .start _ => false
  | .pause => true
  | .resume => true
  | .stop => true
  | .torque _ => true

/-- `s` with the six offsets replaced, and nothing else. -/
def withOffsets (o : Six Offset) (s : State) : State :=
  { s with ch := Six.of fun c => { s.ch.get c with offset := o.get c } }

/-- The machine run for `n` steps, stopping at the first fault. -/
def run : Nat → State → Host.Outcome State Fault Refusal
  | 0, s => .next s
  | n + 1, s =>
    match step s with
    | .next t => run n t
    | .fault f => .fault f
    | .refused r => .refused r

/-- The commands R206 lets intervene in an asynchronous drive: all that neither load a channel nor stop the drive. -/
def intervenes : Instr → Bool
  | .setSpeed _ => true
  | .getOffsets => true
  | .resetOffsets => true
  | .driveOne _ _ => false
  | .driveAll _ => false
  | .tick => true
  | .start _ => false
  | .pause => true
  | .resume => true
  | .stop => false
  | .torque _ => true

end Sys2Proof.Machine
end

