-- ==== Sys2Proof/Certificates/Slice0/Obligations.lean ====
section
/-!
DEFINITION. The statements for the provers, from the numbered rules of the spec. Each holds in every state its
hypotheses allow, reachable or not; the witnesses of the hypotheses are in Sys2Proof/Tests/Slice0.lean.
-/

open Sys2Proof Sys2Proof.Machine

/-! ### Encoding (30_encoding.md) -/

/-- Decoding an encoded command gives it back, for every command and every operand value (R91, R92, R95). -/
def Obligations.DecodeOfEncode : Prop := ∀ i : Instr, decode (encode i) = .command i

/-- Every word that decodes to a command is that command's encoding: one word, one meaning (R91, R92, R95). -/
def Obligations.EncodeOfDecode : Prop := ∀ (w : CommandWord) (i : Instr), decode w = .command i → encode i = w

/-- R96: a word selects a command iff it matches its row under the mask; the rows exclude each other; a word that
matches none is illegal. -/
def Obligations.MatchAndMaskPartitionWords : Prop :=
  ∀ w : CommandWord,
    (∀ row ∈ opcodeTable,
      ((∃ i, decode w = .command i ∧ mnemonic i = row.mnemonic) ↔ w &&& row.mask = row.pattern)) ∧
    (∀ r₁ ∈ opcodeTable, ∀ r₂ ∈ opcodeTable,
      w &&& r₁.mask = r₁.pattern → w &&& r₂.mask = r₂.pattern → r₁ = r₂) ∧
    ((∃ why, decode w = .illegal why) ↔ ∀ row ∈ opcodeTable, w &&& row.mask ≠ row.pattern)

/-- R99, R245: the decoder rejects exactly the words R99 calls illegal; such a word, accepted, changes no state, makes no
bus write, takes no clock sample and is answered `Respond(0, 0)`; the all-zero word is one. -/
def Obligations.IllegalWordsDoNothing : Prop :=
  (∀ w, (∃ why, decode w = .illegal why) ↔ IllegalWord w) ∧
  (∀ w (s : State), IllegalWord w →
    accept w s = .next { s with responses := s.responses ++ [{ ok := false, data := 0 }] }) ∧
  IllegalWord 0

/-- Words written out in R160 to R230 and the commands they stand for. -/
def Obligations.SpecWordsDecode : Prop :=
  decode 0x10000000000000000000000032 = .command (.setSpeed 50) ∧
  decode 0x20000000000000000000000000 = .command .getOffsets ∧
  decode 0x30000000000000000000000000 = .command .resetOffsets ∧
  decode 0x4300000000000000000000FFEC = .command (.driveOne 3 (-20)) ∧
  decode 0x50FFF90003000A0000FFFC000A = .command (.driveAll ⟨10, -4, 0, 10, 3, -7⟩) ∧
  decode 0x60000000000000000000000000 = .command .tick ∧
  decode 0x70000000000000000000000005 = .command (.start ⟨5, 0, 0, 0, 0, 0⟩) ∧
  decode 0x80000000000000000000000000 = .command .pause ∧
  decode 0x90000000000000000000000000 = .command .resume ∧
  decode 0xA0000000000000000000000000 = .command .stop ∧
  decode 0xB0000000000000000000000001 = .command (.torque true)

/-! ### The step (20_memory.md, 42_blocking_drive_commands.md, 70_reset_and_hazards.md) -/

/-- With no command in progress and `rst` low, a step accepts the word presented: it executes the command the word decodes
to, on the state with that word and that sample of `rst` consumed, or answers an illegal word (R62, R63, R99). -/
def Obligations.StepRunsDecodedCommand : Prop :=
  ∀ (s : State) (w : CommandWord) (rest : List CommandWord),
    s.busy = .none → RstLow s → s.cmdIn = w :: rest →
    (∀ i, decode w = .command i → step s = exec i { s with rstIn := s.rstIn.tail, cmdIn := rest }) ∧
    (IllegalWord w → step s = .next { s with
      rstIn := s.rstIn.tail, cmdIn := rest, responses := s.responses ++ [{ ok := false, data := 0 }] })

/-- With no command in progress, none presented and `rst` low, the block waits (the model's reading of R13 and R62,
log 18). -/
def Obligations.StepWaitsForCommand : Prop :=
  ∀ s : State, s.busy = .none → RstLow s → s.cmdIn = [] → step s = .next { s with rstIn := s.rstIn.tail }

/-- R62, R63: while a command is in progress the port accepts nothing, and what stands on it has no effect on the step. -/
def Obligations.BusyPortAcceptsNothing : Prop :=
  ∀ (s : State) (q : List CommandWord), s.busy ≠ .none → RstLow s →
    cmdReady s = false ∧
    ∃ t, step s = .next t ∧ t.cmdIn = s.cmdIn ∧ step { s with cmdIn := q } = .next { t with cmdIn := q }

/-- R62, R64, as a balance kept by every step with `rst` low: the responses only grow, and each word accepted is one
response given or one command in progress. -/
def Obligations.OneResponsePerCommand : Prop :=
  ∀ s t : State, RstLow s → step s = .next t →
    (∃ r, t.responses = s.responses ++ r) ∧
    t.responses.length + inProgress t + t.cmdIn.length = s.responses.length + inProgress s + s.cmdIn.length

/-- R270, R271, R51: a step with `rst` asserted gives every piece of state its reset value, whatever was in progress,
with the bus trace empty and no response. That the inputs and the draw count stay, and that the response list starts
again, is the model's choice (log 9). -/
def Obligations.ResetInputResets : Prop :=
  ∀ (s : State) (rest : List Bool), s.rstIn = true :: rest →
    ∃ t, step s = .next t ∧
      (∀ c, t.ch.get c =
        { address := addrOf s.cfg c, stepsLeft := 0, direction := .cw, phaseIndex := 0, offset := 0 }) ∧
      t.asyncState = .stopped ∧ t.interval = 0 ∧ t.lastStepTime = 0 ∧ t.busy = .none ∧ t.busOut = s.cfg.idleByte ∧
      t.trace = [] ∧ t.responses = [] ∧ t.cfg = s.cfg ∧
      t.rstIn = rest ∧ t.cmdIn = s.cmdIn ∧ t.nowIn = s.nowIn ∧ t.draws = s.draws

/-- R51, R271, R25: what reset leaves, on any instance, with the codes 0 of Stopped and of CW; `State.reset` is the
instance with the defaults of R6's table and, the model's choice (log 1), STANDARD and DIRECT. -/
def Obligations.ResetStateIsTable : Prop :=
  State.reset = State.resetOf {
    variant := .standard, addrScheme := .direct, stepsPerRev := 48
    wave0 := 0xC0, wave1 := 0x60, wave2 := 0x30, wave3 := 0x90
    strobeBit := 0x01, addrMask := 0x0E, addrShift := 1, coilMask := 0xF0
    coilsOff := 0x00, idleByte := 0x01, protoClkBit := 0x10, protoDirBit := 0x20 } ∧
  directionCode .cw = 0 ∧ directionCode .ccw = 1 ∧
  ∀ k : Config, let s := State.resetOf k
    s.cfg = k ∧
    (∀ c, s.ch.get c = { address := addrOf k c, stepsLeft := 0, direction := .cw, phaseIndex := 0, offset := 0 }) ∧
    asyncStateOut s = 0 ∧ s.asyncState = .stopped ∧ s.interval = 0 ∧ s.lastStepTime = 0 ∧ s.busy = .none ∧
    s.busOut = k.idleByte ∧ s.trace = [] ∧ cmdReady s = true

/-! ### The shared primitives (40_scheduler_waveform_primitives.md) -/

/-- R120, R121: the interval is 60000 divided by the steps per revolution and by the speed, rounding down; the order of
the divisions is immaterial; it is at most 60000, and 0 exactly when the speed is above 60000 div STEPS_PER_REV. -/
def Obligations.IntervalIsQuotient : Prop :=
  (∀ a b c : Nat, 0 < b → 0 < c → a / b / c = a / (b * c)) ∧
  ∀ (k : Config) (rpm : Rpm), k.valid = true → rpm ≠ 0 →
    (intervalOf k rpm).toNat = 60000 / k.stepsPerRev / rpm.toNat ∧
    (intervalOf k rpm).toNat = 60000 / (k.stepsPerRev * rpm.toNat) ∧
    (intervalOf k rpm).toNat ≤ 60000 ∧
    ((intervalOf k rpm).toNat = 0 ↔ 60000 / k.stepsPerRev < rpm.toNat)

/-- R122, R123: the gate compares the modular difference with the interval; while the clock has not wrapped that is the
plain difference; with interval 0 it is always open. -/
def Obligations.GateIsModularDifference : Prop :=
  (∀ (now last : Time) (n : Interval),
    mayStep now last n = true ↔ (n.toNat : Int) ≤ ((now.toNat : Int) - last.toNat) % 2 ^ 32) ∧
  (∀ (now last : Time) (n : Interval), last.toNat ≤ now.toNat →
    (mayStep now last n = true ↔ n.toNat ≤ now.toNat - last.toNat)) ∧
  (∀ now last : Time, mayStep now last 0 = true)

/-- R105, R124: the address table of both schemes, with the default shift. -/
def Obligations.AddressTable : Prop :=
  ∀ k : Config, k.addrShift = 1 →
    (k.addrScheme = .direct →
      (addrOf k .c1, addrOf k .c2, addrOf k .c3, addrOf k .c4, addrOf k .c5, addrOf k .c6) =
        (0x02, 0x04, 0x06, 0x08, 0x0A, 0x0C)) ∧
    (k.addrScheme = .reversed →
      (addrOf k .c1, addrOf k .c2, addrOf k .c3, addrOf k .c4, addrOf k .c5, addrOf k .c6) =
        (0x08, 0x04, 0x0C, 0x02, 0x0A, 0x06))

/-- R21: on every legal instance the six addresses are pairwise distinct and lie inside the address mask. -/
def Obligations.AddressesDistinct : Prop :=
  ∀ (k : Config) (c d : Chan), k.valid = true →
    addrOf k c &&& ~~~k.addrMask = 0 ∧ (addrOf k c = addrOf k d → c = d)

/-- R130, R107: the next phase of the STANDARD variant and its pattern, taken at the new index and inside the coil field. -/
def Obligations.NextPhaseStandard : Prop :=
  ∀ (k : Config) (p : Phase) (d : Direction), k.variant = .standard →
    waveLen k = 4 ∧
    (nextPhase k p d).1.toNat = (if d = .cw then (p.toNat + 1) % 4 else (p.toNat + 3) % 4) ∧
    (nextPhase k p d).2 =
      (if (nextPhase k p d).1 = 0 then k.wave0 else if (nextPhase k p d).1 = 1 then k.wave1
        else if (nextPhase k p d).1 = 2 then k.wave2 else k.wave3) ∧
    (k.valid = true → (nextPhase k p d).2 &&& ~~~k.coilMask = 0)

/-- R131, R108 (the spec's own reading D9): the next phase of the PROTOTYPE variant, for the indices it holds, and its
pattern: a clock bit that toggles with the new index and a direction bit. -/
def Obligations.NextPhasePrototype : Prop :=
  ∀ (k : Config) (p : Phase) (d : Direction), k.variant = .prototype → p.toNat < 2 →
    waveLen k = 2 ∧
    (nextPhase k p d).1.toNat = (p.toNat + 1) % 2 ∧ (nextPhase k p d).1 ≠ p ∧
    (nextPhase k p d).2 =
      (if (nextPhase k p d).1 = 1 then k.protoClkBit else 0) ||| (if d = .ccw then k.protoDirBit else 0) ∧
    (k.valid = true → (nextPhase k p d).2 &&& ~~~k.coilMask = 0)

/-- R103, R133, R67: `Emit` makes exactly two writes, strobe asserted then de-asserted, which on a legal instance differ
in the strobe bit and only there for a command byte; it writes no other state. -/
def Obligations.EmitIsStrobePair : Prop :=
  ∀ (s : State) (tick : Option Time) (b : Byte),
    emit tick b s = { s with
      busOut := b, trace := s.trace ++ [⟨b ||| s.cfg.strobeBit, tick⟩, ⟨b, tick⟩] } ∧
    (s.cfg.valid = true → CommandByte s.cfg b →
      b &&& s.cfg.strobeBit = 0 ∧ (b ||| s.cfg.strobeBit) ^^^ b = s.cfg.strobeBit)

/-- R136, R137, R139: a pulse of an active channel writes one strobe pair of the pattern at its new index with its
address, steps its record, and changes nothing else. -/
def Obligations.PulseEffect : Prop :=
  ∀ (s : State) (now : Time) (c : Chan), HasSteps s c →
    let x := s.ch.get c
    let b := (nextPhase s.cfg x.phaseIndex x.direction).2 ||| x.address
    let t := pulse now c s
    Stepped s.cfg x (t.ch.get c) ∧ (t.ch.get c).phaseIndex = (nextPhase s.cfg x.phaseIndex x.direction).1 ∧
    (∀ d, d ≠ c → t.ch.get d = s.ch.get d) ∧
    t = { s with
      ch := t.ch, busOut := b, trace := s.trace ++ [⟨b ||| s.cfg.strobeBit, some now⟩, ⟨b, some now⟩] }

/-- R138: a load writes the magnitude of the delta and, unless it is 0, its direction; nothing else of the channel, and
nothing outside it. -/
def Obligations.LoadEffect : Prop :=
  ∀ (s : State) (c : Chan) (delta : Delta),
    Loaded delta (s.ch.get c) ((load c delta s).ch.get c) ∧
    (∀ d, d ≠ c → (load c delta s).ch.get d = s.ch.get d) ∧
    load c delta s = { s with ch := (load c delta s).ch }

/-- R141, R72: a tick records the sample and pulses every active channel once, in ascending order, with that one
sample; every other channel is as it was; a tick of k active channels makes 2k writes. -/
def Obligations.TickBodyEffect : Prop :=
  ∀ (s : State) (now : Time), let t := tickBody now s
    TickedAll now s t ∧
    (tickEvents now s).length =
      2 * ([Chan.c1, .c2, .c3, .c4, .c5, .c6].countP fun c => decide (0 < (s.ch.get c).stepsLeft.toNat)) ∧
    t = { s with
      ch := t.ch, lastStepTime := now, trace := s.trace ++ tickEvents now s
      busOut := lastByte (tickEvents now s) s.busOut }

/-- R140: `AllDone` is true iff every count is 0, iff their sum is 0. -/
def Obligations.AllDoneIsZeroSum : Prop :=
  ∀ s : State,
    (allDone s = true ↔ ∀ c, (s.ch.get c).stepsLeft = 0) ∧
    (allDone s = true ↔
      (([Chan.c1, .c2, .c3, .c4, .c5, .c6].map fun c => (s.ch.get c).stepsLeft.toNat).sum = 0))

/-- R47's testable property: after N pulses clockwise from index 0 a length-4 waveform stands at N mod 4, after N
counter-clockwise at (4 - N mod 4) mod 4. -/
def Obligations.PhaseAfterPulses : Prop :=
  ∀ (k : Config) (x : Channel) (n : Nat), k.variant = .standard → x.phaseIndex = 0 →
    (x.direction = .cw → (((pulsedChannel k)^[n]) x).phaseIndex.toNat = n % 4) ∧
    (x.direction = .ccw → (((pulsedChannel k)^[n]) x).phaseIndex.toNat = (4 - n % 4) % 4)

/-- R47, R139: the round-trip law: N pulses one way and N the other restore the offset and the phase index, for every N,
every starting offset and both variants. -/
def Obligations.RoundTripLaw : Prop :=
  ∀ (k : Config) (x : Channel) (n : Nat), x.phaseIndex.toNat < waveLen k → x.direction = .cw →
    let there := ((pulsedChannel k)^[n]) x
    let back := ((pulsedChannel k)^[n]) { there with direction := .ccw }
    back.offset = x.offset ∧ back.phaseIndex = x.phaseIndex

/-! ### Configuration and offset commands (41_config_offset_commands.md) -/

/-- R160, R242: SET_SPEED writes the interval of its speed and nothing else, answers ok, and the next gate uses it; a
speed of 0 is the fault SpeedZero. -/
def Obligations.SetSpeedResult : Prop :=
  ∀ (rpm : Rpm) (s : State),
    (rpm ≠ 0 →
      exec (.setSpeed rpm) s = .next { s with
        interval := BitVec.ofNat 16 (60000 / s.cfg.stepsPerRev / rpm.toNat)
        responses := s.responses ++ [{ ok := true, data := 0 }] }) ∧
    (rpm = 0 → exec (.setSpeed rpm) s = .fault .speedZero) ∧
    (∀ now t, exec (.setSpeed rpm) s = .next t → gateOpen now t = mayStep now s.lastStepTime (intervalOf s.cfg rpm)) ∧
    encode (.setSpeed 50) = 0x10000000000000000000000032 ∧
    (s.cfg.stepsPerRev = 48 → intervalOf s.cfg 50 = 25)

/-- R161: GET_OFFSETS answers the six offsets, channel k in lane k, and changes nothing. -/
def Obligations.GetOffsetsResult : Prop :=
  encode .getOffsets = 0x20000000000000000000000000 ∧
  ∀ s : State, ∃ data : RspData,
    exec .getOffsets s = .next { s with responses := s.responses ++ [{ ok := true, data := data }] } ∧
    ∀ c, data.extractLsb' (32 * ((chanNumber c).toNat - 1)) 32 = (s.ch.get c).offset

/-- R162: RESET_OFFSETS zeroes the six offsets and changes nothing else. -/
def Obligations.ResetOffsetsResult : Prop :=
  encode .resetOffsets = 0x30000000000000000000000000 ∧
  ∀ s : State, ∃ t, exec .resetOffsets s = .next t ∧
    (∀ c, t.ch.get c = { s.ch.get c with offset := 0 }) ∧
    t = { s with ch := t.ch, responses := s.responses ++ [{ ok := true, data := 0 }] }

/-! ### Blocking drives (42_blocking_drive_commands.md) -/

/-- R181, R241: a DRIVE_ONE for no channel or of no steps does nothing and answers ok. -/
def Obligations.IgnoredDriveOne : Prop :=
  ∀ (chan : BitVec 3) (steps : Delta) (s : State), chan = 0 ∨ chan = 7 ∨ steps = 0 →
    exec (.driveOne chan steps) s = .next { s with responses := s.responses ++ [{ ok := true, data := 0 }] }

/-- The acceptance of a DRIVE_ONE (R180, R183): the one channel is loaded, the engine set to work; nothing else changes
and no response is given yet. -/
def Obligations.DriveOneAccepted : Prop :=
  ∀ (c : Chan) (steps : Delta) (s : State), steps ≠ 0 →
    ∃ t, exec (.driveOne (chanNumber c) steps) s = .next t ∧
      Loaded steps (s.ch.get c) (t.ch.get c) ∧ (∀ d, d ≠ c → t.ch.get d = s.ch.get d) ∧
      t = { s with ch := t.ch, busy := .one c }

/-- The acceptance of a DRIVE_ALL (R182, R183): all six channels are loaded, the engine set to work. -/
def Obligations.DriveAllAccepted : Prop :=
  ∀ (targets : Lanes) (s : State),
    ∃ t, exec (.driveAll targets) s = .next t ∧
      (∀ c, Loaded (targets.get c) (s.ch.get c) (t.ch.get c)) ∧ t = { s with ch := t.ch, busy := .all }

/-- R183: the engine's steps. With work left, one poll: one sample, and with the gate open it is recorded and the
commanded channel, or every active channel, is pulsed; with the gate closed nothing changes. With none left, the
completion: the idle write, busy NONE, the response. That the idle write carries no sample of a tick is the model's
choice (log 12). -/
def Obligations.EngineSteps : Prop :=
  ∀ s : State, RstLow s →
    let now := (sampleNow s).1
    let s₁ : State := { (sampleNow s).2 with rstIn := s.rstIn.tail }
    let done : State := { s with
      rstIn := s.rstIn.tail, busOut := s.cfg.idleByte, trace := s.trace ++ [⟨s.cfg.idleByte, none⟩]
      busy := .none, responses := s.responses ++ [{ ok := true, data := 0 }] }
    (∀ c, s.busy = .one c → HasSteps s c →
      (mayStep now s.lastStepTime s.interval = false → step s = .next s₁) ∧
      (mayStep now s.lastStepTime s.interval = true → ∃ t, step s = .next t ∧
        Stepped s.cfg (s.ch.get c) (t.ch.get c) ∧ (∀ d, d ≠ c → t.ch.get d = s.ch.get d) ∧
        t = { s₁ with
          ch := t.ch, lastStepTime := now, busOut := pulseByte s.cfg (s.ch.get c)
          trace := s.trace ++ pulseEvents s.cfg now (s.ch.get c) })) ∧
    (∀ c, s.busy = .one c → ¬ HasSteps s c → step s = .next done) ∧
    (s.busy = .all → (∃ c, HasSteps s c) →
      (mayStep now s.lastStepTime s.interval = false → step s = .next s₁) ∧
      (mayStep now s.lastStepTime s.interval = true → ∃ t, step s = .next t ∧ TickedAll now s t ∧
        t = { s₁ with
          ch := t.ch, lastStepTime := now, busOut := lastByte (tickEvents now s) s.busOut
          trace := s.trace ++ tickEvents now s })) ∧
    (s.busy = .all → (∀ c, ¬ HasSteps s c) → step s = .next done)

/-- R184 for DRIVE_ONE, with R180, R208: however many steps the run takes and whatever the clock samples, when the
command has completed exactly |steps| pulses of the commanded channel are on the bus and none of another, its count is
0, its offset has moved by steps, 2|steps| + 1 bytes were written of which the last is the idle byte, the AsyncState is
as it was and one response was given. Pulses are told from other writes by the tags of the trace (log 12). -/
def Obligations.DriveOneIssuesExactPulses : Prop :=
  ∀ (s t : State) (c : Chan) (steps : Delta) (n : Nat),
    Legal s → s.busy = .none → s.rstIn = [] → steps ≠ 0 → s.cmdIn = [encode (.driveOne (chanNumber c) steps)] →
    run n s = .next t → t.cmdIn = [] → t.busy = .none →
    (∀ d, pulsesOn s.cfg d t.trace = pulsesOn s.cfg d s.trace + if d = c then steps.toInt.natAbs else 0) ∧
    (t.ch.get c).stepsLeft = 0 ∧ (t.ch.get c).offset = (s.ch.get c).offset + steps.signExtend 32 ∧
    (∀ d, d ≠ c → t.ch.get d = s.ch.get d) ∧
    t.trace.length = s.trace.length + 2 * steps.toInt.natAbs + 1 ∧ t.busOut = s.cfg.idleByte ∧
    t.asyncState = s.asyncState ∧ t.responses = s.responses ++ [{ ok := true, data := 0 }]

/-- R184 for DRIVE_ALL, with R182, R208: whatever the clock samples, a completed drive has issued exactly |tc| pulses on
each channel c, left every count 0, moved each offset by its delta, and made the idle write last. Pulses are told from
other writes by the tags of the trace (log 12). -/
def Obligations.DriveAllIssuesExactPulses : Prop :=
  ∀ (s t : State) (targets : Lanes) (n : Nat),
    Legal s → s.busy = .none → s.rstIn = [] → s.cmdIn = [encode (.driveAll targets)] →
    run n s = .next t → t.cmdIn = [] → t.busy = .none →
    (∀ c, pulsesOn s.cfg c t.trace = pulsesOn s.cfg c s.trace + (targets.get c).toInt.natAbs ∧
      (t.ch.get c).stepsLeft = 0 ∧ (t.ch.get c).offset = (s.ch.get c).offset + (targets.get c).signExtend 32) ∧
    t.trace.length = s.trace.length +
      2 * (([Chan.c1, .c2, .c3, .c4, .c5, .c6].map fun c => (targets.get c).toInt.natAbs).sum) + 1 ∧
    t.busOut = s.cfg.idleByte ∧ t.asyncState = s.asyncState ∧
    t.responses = s.responses ++ [{ ok := true, data := 0 }]

/-- R185, R182: with samples that each open the gate, one for each tick still needed, a blocking drive completes, after
the ticks and one completion step; the number of ticks is the largest count among the channels it drives. -/
def Obligations.PacedDriveCompletes : Prop :=
  ∀ (s : State) (n : Nat), s.rstIn = [] → s.nowIn.length = n → Paced s.interval s.lastStepTime s.nowIn →
    ((∃ c, s.busy = .one c ∧ (s.ch.get c).stepsLeft.toNat = n) ∨
      (s.busy = .all ∧ (∀ c, (s.ch.get c).stepsLeft.toNat ≤ n) ∧ ∃ c, (s.ch.get c).stepsLeft.toNat = n)) →
    (∀ m t, m ≤ n → run m s = .next t → t.busy = s.busy) ∧
    ∃ t, run (n + 1) s = .next t ∧ t.busy = .none ∧ t.lastStepTime = (s.nowIn.getLast?).getD s.lastStepTime ∧
      t.responses = s.responses ++ [{ ok := true, data := 0 }]

/-- R185, R283: with a stopped clock and a positive interval a blocking drive with work left never completes: after any
number of polls it is still in progress and nothing has been written. -/
def Obligations.StoppedClockBlocksForever : Prop :=
  ∀ (s : State) (n : Nat), s.rstIn = [] → s.interval ≠ 0 → s.nowIn = List.replicate n s.lastStepTime →
    ((∃ c, s.busy = .one c ∧ HasSteps s c) ∨ (s.busy = .all ∧ ∃ c, HasSteps s c)) →
    run n s = .next { s with nowIn := [] }

/-! ### Asynchronous drives (43_async_commands.md) -/

/-- R200: TICK. Not Running: only the response, and no clock sample. Running with the gate closed: the sample is taken
and nothing else. Running with the gate open: a tick, and if no channel is active afterwards, Stopped and the idle
write. That this idle write carries no sample of the tick is the model's choice (log 12); R200 does not say. -/
def Obligations.TickResult : Prop :=
  encode .tick = 0x60000000000000000000000000 ∧
  ∀ s : State,
    let now := (sampleNow s).1
    let s₁ : State := { (sampleNow s).2 with responses := s.responses ++ [{ ok := true, data := 0 }] }
    (s.asyncState ≠ .running →
      exec .tick s = .next { s with responses := s.responses ++ [{ ok := true, data := 0 }] }) ∧
    (s.asyncState = .running → mayStep now s.lastStepTime s.interval = false → exec .tick s = .next s₁) ∧
    (s.asyncState = .running → mayStep now s.lastStepTime s.interval = true →
      ∃ t, exec .tick s = .next t ∧ TickedAll now s t ∧
        ((∃ c, HasSteps t c) →
          t = { s₁ with
            ch := t.ch, lastStepTime := now, busOut := lastByte (tickEvents now s) s.busOut
            trace := s.trace ++ tickEvents now s }) ∧
        ((∀ c, ¬ HasSteps t c) →
          t = { s₁ with
            ch := t.ch, lastStepTime := now, asyncState := .stopped, busOut := s.cfg.idleByte
            trace := s.trace ++ tickEvents now s ++ [⟨s.cfg.idleByte, none⟩] }))

/-- R201: START loads all six channels, sets Running and answers ok in every state; nothing else changes. -/
def Obligations.StartResult : Prop :=
  encode (.start ⟨5, 0, 0, 0, 0, 0⟩) = 0x70000000000000000000000005 ∧
  ∀ (targets : Lanes) (s : State),
    ∃ t, exec (.start targets) s = .next t ∧ (∀ c, Loaded (targets.get c) (s.ch.get c) (t.ch.get c)) ∧
      t = { s with
        ch := t.ch, asyncState := .running, responses := s.responses ++ [{ ok := true, data := 0 }] }

/-- R202, R243: PAUSE. -/
def Obligations.PauseResult : Prop :=
  encode .pause = 0x80000000000000000000000000 ∧
  ∀ s : State,
    (s.asyncState = .running → exec .pause s = .next { s with
      asyncState := .paused, responses := s.responses ++ [{ ok := true, data := 0 }] }) ∧
    (s.asyncState = .paused → exec .pause s = .next { s with
      responses := s.responses ++ [{ ok := true, data := 0 }] }) ∧
    (s.asyncState = .stopped → exec .pause s = .next { s with
      responses := s.responses ++ [{ ok := false, data := 0 }] })

/-- R203, R243: RESUME. -/
def Obligations.ResumeResult : Prop :=
  encode .resume = 0x90000000000000000000000000 ∧
  ∀ s : State,
    (s.asyncState = .paused → exec .resume s = .next { s with
      asyncState := .running, responses := s.responses ++ [{ ok := true, data := 0 }] }) ∧
    (s.asyncState = .running → exec .resume s = .next { s with
      responses := s.responses ++ [{ ok := true, data := 0 }] }) ∧
    (s.asyncState = .stopped → exec .resume s = .next { s with
      responses := s.responses ++ [{ ok := false, data := 0 }] })

/-- R204: STOP sets Stopped in every state and changes nothing else; in particular no count and no bus byte. -/
def Obligations.StopResult : Prop :=
  encode .stop = 0xA0000000000000000000000000 ∧
  ∀ s : State, exec .stop s = .next { s with
    asyncState := .stopped, responses := s.responses ++ [{ ok := true, data := 0 }] }

/-- R207, R30, R73: the state machine, for every command in every state: the code `async_state_o` shows for each
AsyncState, where each command leaves it, and that an illegal word, a wait and a step of the engine leave it as it
was. -/
def Obligations.AsyncStateMachine : Prop :=
  (∀ s : State, asyncStateOut s =
    if s.asyncState = .stopped then 0 else if s.asyncState = .running then 1 else 2) ∧
  (∀ (s t : State) (targets : Lanes), exec (.start targets) s = .next t → t.asyncState = .running) ∧
  (∀ s t : State, exec .pause s = .next t →
    t.asyncState = if s.asyncState = .stopped then .stopped else .paused) ∧
  (∀ s t : State, exec .resume s = .next t →
    t.asyncState = if s.asyncState = .stopped then .stopped else .running) ∧
  (∀ s t : State, exec .stop s = .next t → t.asyncState = .stopped) ∧
  (∀ s t : State, exec .tick s = .next t →
    (t.asyncState ≠ s.asyncState ↔
      s.asyncState = .running ∧ gateOpen (sampleNow s).1 s = true ∧ ∀ c, (s.ch.get c).stepsLeft.toNat ≤ 1) ∧
    (t.asyncState ≠ s.asyncState → t.asyncState = .stopped)) ∧
  (∀ (i : Instr) (s t : State), exec i s = .next t →
    i ∉ [.tick, .pause, .resume, .stop] → (∀ targets, i ≠ .start targets) → t.asyncState = s.asyncState) ∧
  (∀ s t : State, RstLow s → step s = .next t →
    s.busy ≠ .none ∨ (∀ w ∈ s.cmdIn.head?, IllegalWord w) → t.asyncState = s.asyncState)

/-- R206: from a START on, with no other START, DRIVE_ONE, DRIVE_ALL or STOP among the words that follow (an illegal
word does no harm), at every point of the run each channel has been pulsed as often as its count has fallen from |tc|;
so when the drive has stopped exactly |tc| pulses of each channel are on the bus. Pulses are told from the writes of
TORQUE and from idle writes by the tags of the trace (log 12). -/
def Obligations.AsyncDriveIssuesExactPulses : Prop :=
  ∀ (s t : State) (targets : Lanes) (ws : List CommandWord) (n : Nat),
    Legal s → s.busy = .none → s.rstIn = [] → s.cmdIn = encode (.start targets) :: ws →
    (∀ w ∈ ws, ∀ i, decode w = .command i → intervenes i = true) →
    run (n + 1) s = .next t →
    (∀ c, pulsesOn s.cfg c t.trace + (t.ch.get c).stepsLeft.toNat =
      pulsesOn s.cfg c s.trace + (targets.get c).toInt.natAbs) ∧
    (t.asyncState = .stopped →
      ∀ c, (t.ch.get c).stepsLeft = 0 ∧
        pulsesOn s.cfg c t.trace = pulsesOn s.cfg c s.trace + (targets.get c).toInt.natAbs)

/-! ### Torque (44_torque_command.md) -/

/-- R230, R231: TORQUE writes, on STANDARD, one strobe pair for each of the six channels in ascending order, with the
pattern at its present index or the all-coils-off pattern, then the idle byte; on PROTOTYPE the idle byte only; and
changes nothing else. That these writes carry no sample of a tick is the model's choice (log 12); R230 does not say. -/
def Obligations.TorqueResult : Prop :=
  encode (.torque true) = 0xB0000000000000000000000001 ∧ encode (.torque false) = 0xB0000000000000000000000000 ∧
  ∀ (enabled : Bool) (s : State),
    let byteOf := fun c : Chan =>
      (if enabled = true then wave s.cfg (s.ch.get c).phaseIndex else s.cfg.coilsOff) ||| (s.ch.get c).address
    let writes : List BusEvent :=
      [Chan.c1, .c2, .c3, .c4, .c5, .c6].flatMap fun c => [⟨byteOf c ||| s.cfg.strobeBit, none⟩, ⟨byteOf c, none⟩]
    (s.cfg.variant = .standard → writes.length = 12 ∧
      exec (.torque enabled) s = .next { s with
        busOut := s.cfg.idleByte, trace := s.trace ++ writes ++ [⟨s.cfg.idleByte, none⟩]
        responses := s.responses ++ [{ ok := true, data := 0 }] }) ∧
    (s.cfg.variant = .prototype →
      exec (.torque enabled) s = .next { s with
        busOut := s.cfg.idleByte, trace := s.trace ++ [⟨s.cfg.idleByte, none⟩]
        responses := s.responses ++ [{ ok := true, data := 0 }] })

/-! ### The whole machine -/

/-- R52: what each command may write, at its acceptance where it is a blocking one: of the channel fields a DRIVE_ONE those
of the channel its operand names only. -/
def Obligations.CommandsWriteOnlyTheirState : Prop :=
  ∀ (i : Instr) (s t : State), exec i s = .next t →
    (t.interval ≠ s.interval → ∃ rpm, i = .setSpeed rpm) ∧
    ((∃ c, (t.ch.get c).offset ≠ (s.ch.get c).offset) → i = .resetOffsets ∨ i = .tick) ∧
    ((∃ c, (t.ch.get c).phaseIndex ≠ (s.ch.get c).phaseIndex) → i = .tick) ∧
    (∀ c, (t.ch.get c).stepsLeft ≠ (s.ch.get c).stepsLeft →
      i = .tick ∨ (∃ n, i = .driveOne (chanNumber c) n) ∨ (∃ ts, i = .driveAll ts) ∨ ∃ ts, i = .start ts) ∧
    (∀ c, (t.ch.get c).direction ≠ (s.ch.get c).direction →
      (∃ n, i = .driveOne (chanNumber c) n) ∨ (∃ ts, i = .driveAll ts) ∨ ∃ ts, i = .start ts) ∧
    (t.asyncState ≠ s.asyncState → i ∈ [.tick, .pause, .resume, .stop] ∨ ∃ ts, i = .start ts) ∧
    (t.lastStepTime ≠ s.lastStepTime → i = .tick) ∧
    (t.busy ≠ s.busy →
      (∃ c n, i = .driveOne (chanNumber c) n ∧ t.busy = .one c) ∨ ∃ ts, i = .driveAll ts ∧ t.busy = .all) ∧
    (t.trace ≠ s.trace ∨ t.busOut ≠ s.busOut → i = .tick ∨ ∃ e, i = .torque e) ∧
    (∀ c, (t.ch.get c).address = (s.ch.get c).address) ∧
    t.cfg = s.cfg ∧ t.rstIn = s.rstIn ∧ t.cmdIn = s.cmdIn

/-- R180, R182, R183, R208: what a step of the engine leaves alone: the AsyncState, the interval, every direction and
address, and while a DRIVE_ONE is in progress every other channel. -/
def Obligations.EngineLeavesTheRest : Prop :=
  ∀ s : State, s.busy ≠ .none → RstLow s →
    ∃ t, step s = .next t ∧ t.asyncState = s.asyncState ∧ t.interval = s.interval ∧ t.cfg = s.cfg ∧
      (∀ c, (t.ch.get c).direction = (s.ch.get c).direction ∧ (t.ch.get c).address = (s.ch.get c).address) ∧
      (∀ c d, s.busy = .one c → d ≠ c → t.ch.get d = s.ch.get d) ∧
      (t.busy = s.busy ∧ t.responses = s.responses ∨ t.busy = .none)

/-- R70, R72: the clock is sampled only by a TICK while Running and by a poll, once each. A sample is the next listed
one, or a free value where none is listed (log 6). Any other command, an illegal word, a wait, the completion of a
blocking command and a step with `rst` asserted take no sample. That a reset leaves the listed samples as they are is
the model's choice (log 9). -/
def Obligations.ClockSampledOnlyByPolls : Prop :=
  (∀ (s : State) (now : Time) (rest : List Time), s.nowIn = now :: rest →
    sampleNow s = (now, { s with nowIn := rest })) ∧
  (∀ s : State, s.nowIn = [] → sampleNow s = (Config.freeSample s.draws, { s with draws := s.draws + 1 })) ∧
  (∀ (i : Instr) (s t : State), exec i s = .next t → ¬ (i = .tick ∧ s.asyncState = .running) →
    t.nowIn = s.nowIn ∧ t.draws = s.draws) ∧
  (∀ s t : State, exec .tick s = .next t → s.asyncState = .running →
    t.nowIn = (sampleNow s).2.nowIn ∧ t.draws = (sampleNow s).2.draws) ∧
  (∀ s t : State, RstLow s → s.busy = .none → step s = .next t → (∀ w ∈ s.cmdIn.head?, IllegalWord w) →
    t.nowIn = s.nowIn ∧ t.draws = s.draws) ∧
  (∀ s t : State, RstLow s → (∃ c, s.busy = .one c ∧ HasSteps s c) ∨ (s.busy = .all ∧ ∃ c, HasSteps s c) →
    step s = .next t → t.nowIn = (sampleNow s).2.nowIn ∧ t.draws = (sampleNow s).2.draws) ∧
  (∀ s t : State, RstLow s → (∃ c, s.busy = .one c ∧ ¬ HasSteps s c) ∨ (s.busy = .all ∧ ∀ c, ¬ HasSteps s c) →
    step s = .next t → t.nowIn = s.nowIn ∧ t.draws = s.draws) ∧
  (∀ s t : State, ¬ RstLow s → step s = .next t → t.nowIn = s.nowIn ∧ t.draws = s.draws)

/-- R240, R242, R244: the one thing that stops the machine is SET_SPEED 0; it refuses nothing, and every command that
meets its precondition completes. -/
def Obligations.OnlySpeedZeroStops : Prop :=
  (∀ (s : State) (f : Fault), step s = .fault f →
    f = .speedZero ∧ s.busy = .none ∧ ∃ w rest, s.cmdIn = w :: rest ∧ decode w = .command (.setSpeed 0)) ∧
  (∀ (s : State) (r : Refusal), step s ≠ .refused r) ∧
  (∀ (i : Instr) (s : State), i.wellFormed = true → ∃ t, exec i s = .next t)

/-- R24, R46, R47: a step that accepts no load and no RESET_OFFSETS lowers each count by at most one, and moves the
offset and the phase index of each channel by one for each step issued, in its direction: what they will be once the
remaining steps are issued does not change. -/
def Obligations.StepsMoveOffsetAndPhase : Prop :=
  ∀ s t : State, RstLow s → step s = .next t →
    s.busy ≠ .none ∨ (∀ w ∈ s.cmdIn.head?, ∀ i, decode w = .command i → keepsRequest i = true) →
    ∀ c,
      ((t.ch.get c).stepsLeft = (s.ch.get c).stepsLeft ∨
        (t.ch.get c).stepsLeft.toNat + 1 = (s.ch.get c).stepsLeft.toNat) ∧
      offsetAtEnd (t.ch.get c) = offsetAtEnd (s.ch.get c) ∧
      ((s.ch.get c).phaseIndex.toNat < waveLen s.cfg →
        phaseAtEnd s.cfg (t.ch.get c) = phaseAtEnd s.cfg (s.ch.get c))

/-- R290: whatever the command, a step that records a new tick time or moves a phase index does so with a sample at
least `interval` after the last tick, by the modular difference. -/
def Obligations.TicksSpacedByInterval : Prop :=
  ∀ s t : State, RstLow s → step s = .next t →
    t.lastStepTime ≠ s.lastStepTime ∨ (∃ c, (t.ch.get c).phaseIndex ≠ (s.ch.get c).phaseIndex) ∨
      (∃ c, (t.ch.get c).stepsLeft.toNat + 1 = (s.ch.get c).stepsLeft.toNat ∧ s.busy ≠ .none) →
    s.interval.toNat ≤ (t.lastStepTime - s.lastStepTime).toNat

/-- R134, R48: every operation that finishes a drive or a torque command leaves the idle byte on the bus: the end of a
blocking command, the TICK that stops the drive, and every TORQUE. -/
def Obligations.CompletionIdlesBus : Prop :=
  (∀ s t : State, RstLow s → s.busy ≠ .none → step s = .next t → t.busy = .none → t.busOut = s.cfg.idleByte) ∧
  (∀ s t : State, exec .tick s = .next t → s.asyncState = .running → t.asyncState = .stopped →
    t.busOut = s.cfg.idleByte) ∧
  (∀ (e : Bool) (s t : State), exec (.torque e) s = .next t → t.busOut = s.cfg.idleByte)

/-- R45 at reset, on every legal instance, and the other invariants of this file with it. -/
def Obligations.ResetMeetsInvariants : Prop :=
  Legal State.reset ∧
  ∀ k : Config, k.valid = true →
    Legal (State.resetOf k) ∧ BusDisciplined (State.resetOf k) ∧ BusAtRest (State.resetOf k)

/-- R45: every step keeps a legal state legal, and with it the parameters and the addresses as they were (R3, R21). -/
def Obligations.StepKeepsLegal : Prop :=
  ∀ s t : State, Legal s → step s = .next t →
    Legal t ∧ t.cfg = s.cfg ∧ ∀ c, (t.ch.get c).address = (s.ch.get c).address

/-- R34, R102, R103: in every step from a legal state the bus stays disciplined: what has been written is strobe pairs
of command bytes and single idle bytes, and `bus_out` is the last byte written. -/
def Obligations.StepKeepsBusDiscipline : Prop :=
  ∀ s t : State, Legal s → BusDisciplined s → step s = .next t → BusDisciplined t

/-- R48: every step keeps the bus showing the idle byte or the de-asserted command byte of a channel at its present
phase index. -/
def Obligations.StepKeepsBusAtRest : Prop :=
  ∀ s t : State, BusAtRest s → step s = .next t → BusAtRest t

/-- R24: the offsets are advisory, no rule reads one to decide anything: with other offsets a step does the same to
everything but the offsets, whatever it does, unless it is a GET_OFFSETS that answers them. -/
def Obligations.OffsetsDecideNothing : Prop :=
  ∀ (s t : State) (o : Six Offset), step s = .next t →
    s.busy ≠ .none ∨ (∀ w ∈ s.cmdIn.head?, decode w ≠ .command .getOffsets) →
    ∃ o' : Six Offset, step (withOffsets o s) = .next (withOffsets o' t)
end

