-- ==== Sys2Proof/Laws/Config.lean ====
section
/-!
SUPPORT. What the constraints of R6 give: the fields of the output byte kept apart, and addresses and patterns inside
their fields.
-/

namespace Sys2Proof

variable {k : Config}

/-- The constraints of `Config.valid`, one by one. -/
theorem Config.valid_iff : k.valid = true ↔
    1 ≤ k.stepsPerRev ∧ k.stepsPerRev ≤ 60000 ∧ k.strobeBit ∈ oneBitBytes ∧
    k.strobeBit &&& k.addrMask = 0 ∧ k.strobeBit &&& k.coilMask = 0 ∧ k.addrMask &&& k.coilMask = 0 ∧
    k.addrShift ≤ 5 ∧ ((7 : Byte) <<< k.addrShift) &&& ~~~k.addrMask = 0 ∧
    k.wave0 &&& ~~~k.coilMask = 0 ∧ k.wave1 &&& ~~~k.coilMask = 0 ∧
    k.wave2 &&& ~~~k.coilMask = 0 ∧ k.wave3 &&& ~~~k.coilMask = 0 ∧
    k.coilsOff &&& ~~~k.coilMask = 0 ∧
    k.protoClkBit &&& ~~~k.coilMask = 0 ∧ k.protoDirBit &&& ~~~k.coilMask = 0 ∧
    k.protoClkBit ≠ k.protoDirBit := by
  simp only [Config.valid, Bool.and_eq_true, decide_eq_true_eq, beq_iff_eq, bne_iff_ne, and_assoc]

/-- `x` lies inside the mask `m`. -/
theorem inside_iff (x m : Byte) : x &&& ~~~m = 0 ↔ x &&& m = x := by
  constructor
  · intro h
    ext i hi
    have := congrArg (fun b : Byte => b[i]) h
    simpa using this
  · intro h
    rw [← h]
    ext i hi
    simp

namespace Machine

/-- Every pattern the waveform generator gives lies inside the coil field (R130, R131). -/
theorem patternOf_inside (h : k.valid = true) (p : Phase) (d : Direction) : patternOf k p d &&& ~~~k.coilMask = 0 := by
  obtain ⟨-, -, -, -, -, -, -, -, h0, h1, h2, h3, -, hc, hd, -⟩ := Config.valid_iff.mp h
  unfold patternOf wave protoPattern
  split
  · split_ifs <;> assumption
  · have hor : ∀ x y : Byte, x &&& ~~~k.coilMask = 0 → y &&& ~~~k.coilMask = 0 → (x ||| y) &&& ~~~k.coilMask = 0 := by
      intro x y hx hy
      ext i hi
      have e1 := congrArg (fun b : Byte => b[i]) hx
      have e2 := congrArg (fun b : Byte => b[i]) hy
      simp at e1 e2 ⊢
      tauto
    refine hor _ _ ?_ ?_ <;> split_ifs <;> first | assumption | simp

end Machine

end Sys2Proof
end

