-- ==== Sys2Proof/Laws/Decode.lean ====
section
/-!
SUPPORT. The fields of a packed word, and a word as the packing of its fields: what every claim about encodings rests on.
-/

namespace Sys2Proof

open BitVec

@[simp] theorem opField_packWord (op : BitVec 4) (r : BitVec 1) (c : BitVec 3) (l : Lanes) :
    opField (packWord op r c l) = op := by
  unfold opField packWord
  iterate 8 rw [extractLsb'_append_eq_of_le (by decide)]
  exact extractLsb'_eq_self

@[simp] theorem rsvField_packWord (op : BitVec 4) (r : BitVec 1) (c : BitVec 3) (l : Lanes) :
    rsvField (packWord op r c l) = r := by
  unfold rsvField packWord
  iterate 7 rw [extractLsb'_append_eq_of_le (by decide)]
  rw [extractLsb'_append_eq_of_add_le (by decide)]
  exact extractLsb'_eq_self

@[simp] theorem chanField_packWord (op : BitVec 4) (r : BitVec 1) (c : BitVec 3) (l : Lanes) :
    chanField (packWord op r c l) = c := by
  unfold chanField packWord
  iterate 6 rw [extractLsb'_append_eq_of_le (by decide)]
  rw [extractLsb'_append_eq_of_add_le (by decide)]
  exact extractLsb'_eq_self

@[simp] theorem laneFields_packWord (op : BitVec 4) (r : BitVec 1) (c : BitVec 3) (l : Lanes) :
    laneFields (packWord op r c l) = l := by
  obtain ⟨l1, l2, l3, l4, l5, l6⟩ := l
  unfold laneFields packWord
  congr 1
  · rw [extractLsb'_append_eq_of_add_le (by decide)]; exact extractLsb'_eq_self
  · iterate 1 rw [extractLsb'_append_eq_of_le (by decide)]
    rw [extractLsb'_append_eq_of_add_le (by decide)]; exact extractLsb'_eq_self
  · iterate 2 rw [extractLsb'_append_eq_of_le (by decide)]
    rw [extractLsb'_append_eq_of_add_le (by decide)]; exact extractLsb'_eq_self
  · iterate 3 rw [extractLsb'_append_eq_of_le (by decide)]
    rw [extractLsb'_append_eq_of_add_le (by decide)]; exact extractLsb'_eq_self
  · iterate 4 rw [extractLsb'_append_eq_of_le (by decide)]
    rw [extractLsb'_append_eq_of_add_le (by decide)]; exact extractLsb'_eq_self
  · iterate 5 rw [extractLsb'_append_eq_of_le (by decide)]
    rw [extractLsb'_append_eq_of_add_le (by decide)]; exact extractLsb'_eq_self

/-- A word is the packing of its fields. -/
theorem packWord_fields (w : CommandWord) :
    packWord (opField w) (rsvField w) (chanField w) (laneFields w) = w := by
  unfold packWord opField rsvField chanField laneFields
  iterate 8 rw [extractLsb'_append_extractLsb'_eq_extractLsb' (by decide)]
  exact extractLsb'_eq_self

/-- Packings are equal only field by field. -/
theorem packWord_inj {op op' : BitVec 4} {r r' : BitVec 1} {c c' : BitVec 3} {l l' : Lanes} :
    packWord op r c l = packWord op' r' c' l' ↔ op = op' ∧ r = r' ∧ c = c' ∧ l = l' := by
  constructor
  · intro h
    have h1 := congrArg opField h
    have h2 := congrArg rsvField h
    have h3 := congrArg chanField h
    have h4 := congrArg laneFields h
    simp only [opField_packWord, rsvField_packWord, chanField_packWord, laneFields_packWord] at h1 h2 h3 h4
    exact ⟨h1, h2, h3, h4⟩
  · rintro ⟨rfl, rfl, rfl, rfl⟩; rfl

/-- A bitwise and of packings is the packing of the bitwise ands. -/
theorem packWord_and (op op' : BitVec 4) (r r' : BitVec 1) (c c' : BitVec 3) (l l' : Lanes) :
    packWord op r c l &&& packWord op' r' c' l' =
      packWord (op &&& op') (r &&& r') (c &&& c') (Six.of fun k => l.get k &&& l'.get k) := by
  simp only [packWord, Six.of, Six.get]
  iterate 7 refine and_append.trans (congrArg₂ (· ++ ·) ?_ rfl)
  exact and_append

/-- On a packed word with `rsv` 0 the decoder reads the fields. -/
theorem decode_packWord (op : BitVec 4) (c : BitVec 3) (l : Lanes) :
    decode (packWord op 0#1 c l) = decodeFields op c l := by
  simp [decode]

/-- A word with `rsv` set is illegal. -/
theorem decode_packWord_rsv (op : BitVec 4) (c : BitVec 3) (l : Lanes) :
    decode (packWord op 1#1 c l) = .illegal .reservedBit := by
  simp [decode]

end Sys2Proof
end

