-- ==== Sys2Proof/Laws/State.lean ====
section
/-!
SUPPORT. The small lemmas of the state updates: one per field per update, so that no proof unfolds a record update.
-/

namespace Sys2Proof

/-! ### Six like things -/

@[simp] theorem Six.get_of {α : Type} (f : Chan → α) (c : Chan) : (Six.of f).get c = f c := by cases c <;> rfl

@[simp] theorem Six.get_set_self {α : Type} (x : Six α) (c : Chan) (a : α) : (x.set c a).get c = a := by
  cases c <;> rfl

theorem Six.get_set {α : Type} (x : Six α) (c d : Chan) (a : α) :
    (x.set c a).get d = if d = c then a else x.get d := by
  cases c <;> cases d <;> rfl

@[simp] theorem Six.get_set_ne {α : Type} (x : Six α) {c d : Chan} (a : α) (h : d ≠ c) :
    (x.set c a).get d = x.get d := by
  rw [Six.get_set, if_neg h]

/-- Two sixes with the same things for every channel are the same. -/
theorem Six.ext_get {α : Type} {x y : Six α} (h : ∀ c, x.get c = y.get c) : x = y := by
  cases x; cases y
  have h1 := h .c1; have h2 := h .c2; have h3 := h .c3
  have h4 := h .c4; have h5 := h .c5; have h6 := h .c6
  simp only [Six.get] at h1 h2 h3 h4 h5 h6
  subst h1 h2 h3 h4 h5 h6; rfl

@[simp] theorem Six.set_get_self {α : Type} (x : Six α) (c : Chan) : x.set c (x.get c) = x := by cases c <;> rfl

namespace Machine

variable (s : State)

@[simp] theorem mem_scanOrder (c : Chan) : c ∈ scanOrder := by cases c <;> decide

theorem scanOrder_nodup : scanOrder.Nodup := by decide

/-! ### setChannel -/

@[simp] theorem setChannel_cfg (c : Chan) (x : Channel) : (setChannel c x s).cfg = s.cfg := rfl
@[simp] theorem setChannel_ch (c : Chan) (x : Channel) : (setChannel c x s).ch = s.ch.set c x := rfl
@[simp] theorem setChannel_asyncState (c : Chan) (x : Channel) : (setChannel c x s).asyncState = s.asyncState := rfl
@[simp] theorem setChannel_interval (c : Chan) (x : Channel) : (setChannel c x s).interval = s.interval := rfl
@[simp] theorem setChannel_lastStepTime (c : Chan) (x : Channel) : (setChannel c x s).lastStepTime = s.lastStepTime := rfl
@[simp] theorem setChannel_busy (c : Chan) (x : Channel) : (setChannel c x s).busy = s.busy := rfl
@[simp] theorem setChannel_busOut (c : Chan) (x : Channel) : (setChannel c x s).busOut = s.busOut := rfl
@[simp] theorem setChannel_trace (c : Chan) (x : Channel) : (setChannel c x s).trace = s.trace := rfl
@[simp] theorem setChannel_responses (c : Chan) (x : Channel) : (setChannel c x s).responses = s.responses := rfl
@[simp] theorem setChannel_rstIn (c : Chan) (x : Channel) : (setChannel c x s).rstIn = s.rstIn := rfl
@[simp] theorem setChannel_cmdIn (c : Chan) (x : Channel) : (setChannel c x s).cmdIn = s.cmdIn := rfl
@[simp] theorem setChannel_nowIn (c : Chan) (x : Channel) : (setChannel c x s).nowIn = s.nowIn := rfl
@[simp] theorem setChannel_draws (c : Chan) (x : Channel) : (setChannel c x s).draws = s.draws := rfl

/-! ### setAsync -/

@[simp] theorem setAsync_cfg (a : AsyncState) : (setAsync a s).cfg = s.cfg := rfl
@[simp] theorem setAsync_ch (a : AsyncState) : (setAsync a s).ch = s.ch := rfl
@[simp] theorem setAsync_asyncState (a : AsyncState) : (setAsync a s).asyncState = a := rfl
@[simp] theorem setAsync_interval (a : AsyncState) : (setAsync a s).interval = s.interval := rfl
@[simp] theorem setAsync_lastStepTime (a : AsyncState) : (setAsync a s).lastStepTime = s.lastStepTime := rfl
@[simp] theorem setAsync_busy (a : AsyncState) : (setAsync a s).busy = s.busy := rfl
@[simp] theorem setAsync_busOut (a : AsyncState) : (setAsync a s).busOut = s.busOut := rfl
@[simp] theorem setAsync_trace (a : AsyncState) : (setAsync a s).trace = s.trace := rfl
@[simp] theorem setAsync_responses (a : AsyncState) : (setAsync a s).responses = s.responses := rfl
@[simp] theorem setAsync_rstIn (a : AsyncState) : (setAsync a s).rstIn = s.rstIn := rfl
@[simp] theorem setAsync_cmdIn (a : AsyncState) : (setAsync a s).cmdIn = s.cmdIn := rfl
@[simp] theorem setAsync_nowIn (a : AsyncState) : (setAsync a s).nowIn = s.nowIn := rfl
@[simp] theorem setAsync_draws (a : AsyncState) : (setAsync a s).draws = s.draws := rfl

/-! ### setInterval -/

@[simp] theorem setInterval_cfg (n : Interval) : (setInterval n s).cfg = s.cfg := rfl
@[simp] theorem setInterval_ch (n : Interval) : (setInterval n s).ch = s.ch := rfl
@[simp] theorem setInterval_asyncState (n : Interval) : (setInterval n s).asyncState = s.asyncState := rfl
@[simp] theorem setInterval_interval (n : Interval) : (setInterval n s).interval = n := rfl
@[simp] theorem setInterval_lastStepTime (n : Interval) : (setInterval n s).lastStepTime = s.lastStepTime := rfl
@[simp] theorem setInterval_busy (n : Interval) : (setInterval n s).busy = s.busy := rfl
@[simp] theorem setInterval_busOut (n : Interval) : (setInterval n s).busOut = s.busOut := rfl
@[simp] theorem setInterval_trace (n : Interval) : (setInterval n s).trace = s.trace := rfl
@[simp] theorem setInterval_responses (n : Interval) : (setInterval n s).responses = s.responses := rfl
@[simp] theorem setInterval_rstIn (n : Interval) : (setInterval n s).rstIn = s.rstIn := rfl
@[simp] theorem setInterval_cmdIn (n : Interval) : (setInterval n s).cmdIn = s.cmdIn := rfl
@[simp] theorem setInterval_nowIn (n : Interval) : (setInterval n s).nowIn = s.nowIn := rfl
@[simp] theorem setInterval_draws (n : Interval) : (setInterval n s).draws = s.draws := rfl

/-! ### setLastStepTime -/

@[simp] theorem setLastStepTime_cfg (t : Time) : (setLastStepTime t s).cfg = s.cfg := rfl
@[simp] theorem setLastStepTime_ch (t : Time) : (setLastStepTime t s).ch = s.ch := rfl
@[simp] theorem setLastStepTime_asyncState (t : Time) : (setLastStepTime t s).asyncState = s.asyncState := rfl
@[simp] theorem setLastStepTime_interval (t : Time) : (setLastStepTime t s).interval = s.interval := rfl
@[simp] theorem setLastStepTime_lastStepTime (t : Time) : (setLastStepTime t s).lastStepTime = t := rfl
@[simp] theorem setLastStepTime_busy (t : Time) : (setLastStepTime t s).busy = s.busy := rfl
@[simp] theorem setLastStepTime_busOut (t : Time) : (setLastStepTime t s).busOut = s.busOut := rfl
@[simp] theorem setLastStepTime_trace (t : Time) : (setLastStepTime t s).trace = s.trace := rfl
@[simp] theorem setLastStepTime_responses (t : Time) : (setLastStepTime t s).responses = s.responses := rfl
@[simp] theorem setLastStepTime_rstIn (t : Time) : (setLastStepTime t s).rstIn = s.rstIn := rfl
@[simp] theorem setLastStepTime_cmdIn (t : Time) : (setLastStepTime t s).cmdIn = s.cmdIn := rfl
@[simp] theorem setLastStepTime_nowIn (t : Time) : (setLastStepTime t s).nowIn = s.nowIn := rfl
@[simp] theorem setLastStepTime_draws (t : Time) : (setLastStepTime t s).draws = s.draws := rfl

/-! ### setBusy -/

@[simp] theorem setBusy_cfg (b : Busy) : (setBusy b s).cfg = s.cfg := rfl
@[simp] theorem setBusy_ch (b : Busy) : (setBusy b s).ch = s.ch := rfl
@[simp] theorem setBusy_asyncState (b : Busy) : (setBusy b s).asyncState = s.asyncState := rfl
@[simp] theorem setBusy_interval (b : Busy) : (setBusy b s).interval = s.interval := rfl
@[simp] theorem setBusy_lastStepTime (b : Busy) : (setBusy b s).lastStepTime = s.lastStepTime := rfl
@[simp] theorem setBusy_busy (b : Busy) : (setBusy b s).busy = b := rfl
@[simp] theorem setBusy_busOut (b : Busy) : (setBusy b s).busOut = s.busOut := rfl
@[simp] theorem setBusy_trace (b : Busy) : (setBusy b s).trace = s.trace := rfl
@[simp] theorem setBusy_responses (b : Busy) : (setBusy b s).responses = s.responses := rfl
@[simp] theorem setBusy_rstIn (b : Busy) : (setBusy b s).rstIn = s.rstIn := rfl
@[simp] theorem setBusy_cmdIn (b : Busy) : (setBusy b s).cmdIn = s.cmdIn := rfl
@[simp] theorem setBusy_nowIn (b : Busy) : (setBusy b s).nowIn = s.nowIn := rfl
@[simp] theorem setBusy_draws (b : Busy) : (setBusy b s).draws = s.draws := rfl

/-! ### busWrite -/

@[simp] theorem busWrite_cfg (t : Option Time) (b : Byte) : (busWrite t b s).cfg = s.cfg := rfl
@[simp] theorem busWrite_ch (t : Option Time) (b : Byte) : (busWrite t b s).ch = s.ch := rfl
@[simp] theorem busWrite_asyncState (t : Option Time) (b : Byte) : (busWrite t b s).asyncState = s.asyncState := rfl
@[simp] theorem busWrite_interval (t : Option Time) (b : Byte) : (busWrite t b s).interval = s.interval := rfl
@[simp] theorem busWrite_lastStepTime (t : Option Time) (b : Byte) : (busWrite t b s).lastStepTime = s.lastStepTime := rfl
@[simp] theorem busWrite_busy (t : Option Time) (b : Byte) : (busWrite t b s).busy = s.busy := rfl
@[simp] theorem busWrite_busOut (t : Option Time) (b : Byte) : (busWrite t b s).busOut = b := rfl
@[simp] theorem busWrite_trace (t : Option Time) (b : Byte) : (busWrite t b s).trace = s.trace ++ [⟨b, t⟩] := rfl
@[simp] theorem busWrite_responses (t : Option Time) (b : Byte) : (busWrite t b s).responses = s.responses := rfl
@[simp] theorem busWrite_rstIn (t : Option Time) (b : Byte) : (busWrite t b s).rstIn = s.rstIn := rfl
@[simp] theorem busWrite_cmdIn (t : Option Time) (b : Byte) : (busWrite t b s).cmdIn = s.cmdIn := rfl
@[simp] theorem busWrite_nowIn (t : Option Time) (b : Byte) : (busWrite t b s).nowIn = s.nowIn := rfl
@[simp] theorem busWrite_draws (t : Option Time) (b : Byte) : (busWrite t b s).draws = s.draws := rfl

/-! ### respond -/

@[simp] theorem respond_cfg (ok : Bool) (d : RspData) : (respond ok d s).cfg = s.cfg := rfl
@[simp] theorem respond_ch (ok : Bool) (d : RspData) : (respond ok d s).ch = s.ch := rfl
@[simp] theorem respond_asyncState (ok : Bool) (d : RspData) : (respond ok d s).asyncState = s.asyncState := rfl
@[simp] theorem respond_interval (ok : Bool) (d : RspData) : (respond ok d s).interval = s.interval := rfl
@[simp] theorem respond_lastStepTime (ok : Bool) (d : RspData) : (respond ok d s).lastStepTime = s.lastStepTime := rfl
@[simp] theorem respond_busy (ok : Bool) (d : RspData) : (respond ok d s).busy = s.busy := rfl
@[simp] theorem respond_busOut (ok : Bool) (d : RspData) : (respond ok d s).busOut = s.busOut := rfl
@[simp] theorem respond_trace (ok : Bool) (d : RspData) : (respond ok d s).trace = s.trace := rfl
@[simp] theorem respond_responses (ok : Bool) (d : RspData) : (respond ok d s).responses = s.responses ++ [⟨ok, d⟩] := rfl
@[simp] theorem respond_rstIn (ok : Bool) (d : RspData) : (respond ok d s).rstIn = s.rstIn := rfl
@[simp] theorem respond_cmdIn (ok : Bool) (d : RspData) : (respond ok d s).cmdIn = s.cmdIn := rfl
@[simp] theorem respond_nowIn (ok : Bool) (d : RspData) : (respond ok d s).nowIn = s.nowIn := rfl
@[simp] theorem respond_draws (ok : Bool) (d : RspData) : (respond ok d s).draws = s.draws := rfl

/-! ### emit -/

@[simp] theorem emit_cfg (t : Option Time) (b : Byte) : (emit t b s).cfg = s.cfg := by simp [emit]
@[simp] theorem emit_ch (t : Option Time) (b : Byte) : (emit t b s).ch = s.ch := by simp [emit]
@[simp] theorem emit_asyncState (t : Option Time) (b : Byte) : (emit t b s).asyncState = s.asyncState := by simp [emit]
@[simp] theorem emit_interval (t : Option Time) (b : Byte) : (emit t b s).interval = s.interval := by simp [emit]
@[simp] theorem emit_lastStepTime (t : Option Time) (b : Byte) : (emit t b s).lastStepTime = s.lastStepTime := by simp [emit]
@[simp] theorem emit_busy (t : Option Time) (b : Byte) : (emit t b s).busy = s.busy := by simp [emit]
@[simp] theorem emit_busOut (t : Option Time) (b : Byte) : (emit t b s).busOut = b := by simp [emit]
@[simp] theorem emit_trace (t : Option Time) (b : Byte) : (emit t b s).trace = s.trace ++ [⟨b ||| s.cfg.strobeBit, t⟩, ⟨b, t⟩] := by simp [emit]
@[simp] theorem emit_responses (t : Option Time) (b : Byte) : (emit t b s).responses = s.responses := by simp [emit]
@[simp] theorem emit_rstIn (t : Option Time) (b : Byte) : (emit t b s).rstIn = s.rstIn := by simp [emit]
@[simp] theorem emit_cmdIn (t : Option Time) (b : Byte) : (emit t b s).cmdIn = s.cmdIn := by simp [emit]
@[simp] theorem emit_nowIn (t : Option Time) (b : Byte) : (emit t b s).nowIn = s.nowIn := by simp [emit]
@[simp] theorem emit_draws (t : Option Time) (b : Byte) : (emit t b s).draws = s.draws := by simp [emit]

/-! ### idle -/

@[simp] theorem idle_cfg : (idle s).cfg = s.cfg := rfl
@[simp] theorem idle_ch : (idle s).ch = s.ch := rfl
@[simp] theorem idle_asyncState : (idle s).asyncState = s.asyncState := rfl
@[simp] theorem idle_interval : (idle s).interval = s.interval := rfl
@[simp] theorem idle_lastStepTime : (idle s).lastStepTime = s.lastStepTime := rfl
@[simp] theorem idle_busy : (idle s).busy = s.busy := rfl
@[simp] theorem idle_busOut : (idle s).busOut = s.cfg.idleByte := rfl
@[simp] theorem idle_trace : (idle s).trace = s.trace ++ [⟨s.cfg.idleByte, none⟩] := rfl
@[simp] theorem idle_responses : (idle s).responses = s.responses := rfl
@[simp] theorem idle_rstIn : (idle s).rstIn = s.rstIn := rfl
@[simp] theorem idle_cmdIn : (idle s).cmdIn = s.cmdIn := rfl
@[simp] theorem idle_nowIn : (idle s).nowIn = s.nowIn := rfl
@[simp] theorem idle_draws : (idle s).draws = s.draws := rfl

/-! ### load -/

@[simp] theorem load_cfg (c : Chan) (d : Delta) : (load c d s).cfg = s.cfg := rfl
@[simp] theorem load_ch (c : Chan) (d : Delta) : (load c d s).ch = s.ch.set c (loadChannel d (s.ch.get c)) := rfl
@[simp] theorem load_asyncState (c : Chan) (d : Delta) : (load c d s).asyncState = s.asyncState := rfl
@[simp] theorem load_interval (c : Chan) (d : Delta) : (load c d s).interval = s.interval := rfl
@[simp] theorem load_lastStepTime (c : Chan) (d : Delta) : (load c d s).lastStepTime = s.lastStepTime := rfl
@[simp] theorem load_busy (c : Chan) (d : Delta) : (load c d s).busy = s.busy := rfl
@[simp] theorem load_busOut (c : Chan) (d : Delta) : (load c d s).busOut = s.busOut := rfl
@[simp] theorem load_trace (c : Chan) (d : Delta) : (load c d s).trace = s.trace := rfl
@[simp] theorem load_responses (c : Chan) (d : Delta) : (load c d s).responses = s.responses := rfl
@[simp] theorem load_rstIn (c : Chan) (d : Delta) : (load c d s).rstIn = s.rstIn := rfl
@[simp] theorem load_cmdIn (c : Chan) (d : Delta) : (load c d s).cmdIn = s.cmdIn := rfl
@[simp] theorem load_nowIn (c : Chan) (d : Delta) : (load c d s).nowIn = s.nowIn := rfl
@[simp] theorem load_draws (c : Chan) (d : Delta) : (load c d s).draws = s.draws := rfl

/-! ### pulse -/

@[simp] theorem pulse_cfg (now : Time) (c : Chan) : (pulse now c s).cfg = s.cfg := by simp [pulse]
@[simp] theorem pulse_ch (now : Time) (c : Chan) : (pulse now c s).ch = s.ch.set c (pulsedChannel s.cfg (s.ch.get c)) := by simp [pulse]
@[simp] theorem pulse_asyncState (now : Time) (c : Chan) : (pulse now c s).asyncState = s.asyncState := by simp [pulse]
@[simp] theorem pulse_interval (now : Time) (c : Chan) : (pulse now c s).interval = s.interval := by simp [pulse]
@[simp] theorem pulse_lastStepTime (now : Time) (c : Chan) : (pulse now c s).lastStepTime = s.lastStepTime := by simp [pulse]
@[simp] theorem pulse_busy (now : Time) (c : Chan) : (pulse now c s).busy = s.busy := by simp [pulse]
@[simp] theorem pulse_busOut (now : Time) (c : Chan) : (pulse now c s).busOut = pulseByte s.cfg (s.ch.get c) := by simp [pulse]
@[simp] theorem pulse_trace (now : Time) (c : Chan) : (pulse now c s).trace = s.trace ++ [⟨pulseByte s.cfg (s.ch.get c) ||| s.cfg.strobeBit, some now⟩, ⟨pulseByte s.cfg (s.ch.get c), some now⟩] := by simp [pulse]
@[simp] theorem pulse_responses (now : Time) (c : Chan) : (pulse now c s).responses = s.responses := by simp [pulse]
@[simp] theorem pulse_rstIn (now : Time) (c : Chan) : (pulse now c s).rstIn = s.rstIn := by simp [pulse]
@[simp] theorem pulse_cmdIn (now : Time) (c : Chan) : (pulse now c s).cmdIn = s.cmdIn := by simp [pulse]
@[simp] theorem pulse_nowIn (now : Time) (c : Chan) : (pulse now c s).nowIn = s.nowIn := by simp [pulse]
@[simp] theorem pulse_draws (now : Time) (c : Chan) : (pulse now c s).draws = s.draws := by simp [pulse]

/-! ### sampleNow: only the clock input and the count of draws change -/

@[simp] theorem sampleNow_cfg : (sampleNow s).2.cfg = s.cfg := by unfold sampleNow; split <;> rfl
@[simp] theorem sampleNow_ch : (sampleNow s).2.ch = s.ch := by unfold sampleNow; split <;> rfl
@[simp] theorem sampleNow_asyncState : (sampleNow s).2.asyncState = s.asyncState := by unfold sampleNow; split <;> rfl
@[simp] theorem sampleNow_interval : (sampleNow s).2.interval = s.interval := by unfold sampleNow; split <;> rfl
@[simp] theorem sampleNow_lastStepTime : (sampleNow s).2.lastStepTime = s.lastStepTime := by unfold sampleNow; split <;> rfl
@[simp] theorem sampleNow_busy : (sampleNow s).2.busy = s.busy := by unfold sampleNow; split <;> rfl
@[simp] theorem sampleNow_busOut : (sampleNow s).2.busOut = s.busOut := by unfold sampleNow; split <;> rfl
@[simp] theorem sampleNow_trace : (sampleNow s).2.trace = s.trace := by unfold sampleNow; split <;> rfl
@[simp] theorem sampleNow_responses : (sampleNow s).2.responses = s.responses := by unfold sampleNow; split <;> rfl
@[simp] theorem sampleNow_rstIn : (sampleNow s).2.rstIn = s.rstIn := by unfold sampleNow; split <;> rfl
@[simp] theorem sampleNow_cmdIn : (sampleNow s).2.cmdIn = s.cmdIn := by unfold sampleNow; split <;> rfl
@[simp] theorem sampleNow_nowIn : (sampleNow s).2.nowIn = s.nowIn.tail := by unfold sampleNow; split <;> simp_all

/-! ### complete -/

@[simp] theorem complete_cfg : (complete s).cfg = s.cfg := rfl
@[simp] theorem complete_ch : (complete s).ch = s.ch := rfl
@[simp] theorem complete_asyncState : (complete s).asyncState = s.asyncState := rfl
@[simp] theorem complete_interval : (complete s).interval = s.interval := rfl
@[simp] theorem complete_lastStepTime : (complete s).lastStepTime = s.lastStepTime := rfl
@[simp] theorem complete_busy : (complete s).busy = Busy.none := rfl
@[simp] theorem complete_busOut : (complete s).busOut = s.cfg.idleByte := rfl
@[simp] theorem complete_trace : (complete s).trace = s.trace ++ [⟨s.cfg.idleByte, none⟩] := rfl
@[simp] theorem complete_responses : (complete s).responses = s.responses ++ [⟨true, 0⟩] := rfl
@[simp] theorem complete_rstIn : (complete s).rstIn = s.rstIn := rfl
@[simp] theorem complete_cmdIn : (complete s).cmdIn = s.cmdIn := rfl
@[simp] theorem complete_nowIn : (complete s).nowIn = s.nowIn := rfl
@[simp] theorem complete_draws : (complete s).draws = s.draws := rfl

/-! ### pulsedChannel and loadChannel -/

@[simp] theorem pulsedChannel_address (k : Config) (x : Channel) : (pulsedChannel k x).address = x.address := rfl
@[simp] theorem pulsedChannel_direction (k : Config) (x : Channel) : (pulsedChannel k x).direction = x.direction := rfl
@[simp] theorem pulsedChannel_stepsLeft (k : Config) (x : Channel) : (pulsedChannel k x).stepsLeft = x.stepsLeft - 1 := rfl
@[simp] theorem pulsedChannel_offset (k : Config) (x : Channel) : (pulsedChannel k x).offset = offsetAfter x.direction x.offset := rfl
@[simp] theorem pulsedChannel_phaseIndex (k : Config) (x : Channel) : (pulsedChannel k x).phaseIndex = nextIndex k x.phaseIndex x.direction := rfl
@[simp] theorem loadChannel_address (d : Delta) (x : Channel) : (loadChannel d x).address = x.address := rfl
@[simp] theorem loadChannel_direction (d : Delta) (x : Channel) : (loadChannel d x).direction = loadDirection d x.direction := rfl
@[simp] theorem loadChannel_stepsLeft (d : Delta) (x : Channel) : (loadChannel d x).stepsLeft = magnitude d := rfl
@[simp] theorem loadChannel_offset (d : Delta) (x : Channel) : (loadChannel d x).offset = x.offset := rfl
@[simp] theorem loadChannel_phaseIndex (d : Delta) (x : Channel) : (loadChannel d x).phaseIndex = x.phaseIndex := rfl

end Machine

end Sys2Proof
end

