-- ==== Sys2Proof/Laws/Ops.lean ====
section
/-!
SUPPORT. One lemma per shared operation that says once what it does: closed forms of the loops over the channels, of a
pulse and of a load, and what decides them.
-/

namespace Sys2Proof.Machine

/-! ### Conditions -/

theorem active_iff (s : State) (c : Chan) : active s c = true ↔ HasSteps s c := by simp [active, HasSteps]

theorem allDone_iff (s : State) : allDone s = true ↔ ∀ c, ¬ HasSteps s c := by
  simp only [allDone, List.all_eq_true, Bool.not_eq_true', ← Bool.not_eq_true, active_iff]
  exact ⟨fun h c => h c (mem_scanOrder c), fun h c _ => h c⟩

theorem mayStep_iff (now last : Time) (n : Interval) :
    mayStep now last n = true ↔ n.toNat ≤ (now - last).toNat := by simp [mayStep]

@[simp] theorem cmdReady_iff (s : State) : cmdReady s = true ↔ s.busy = .none := by simp [cmdReady]

/-! ### Channel numbers -/

@[simp] theorem chanOfNumber_chanNumber (c : Chan) : chanOfNumber (chanNumber c) = some c := by cases c <;> rfl

/-- A channel number names the channel it is the number of, and no other. -/
theorem eq_chanNumber_of_chanOfNumber {n : BitVec 3} {c : Chan} (h : chanOfNumber n = some c) : n = chanNumber c := by
  unfold chanOfNumber at h
  split_ifs at h <;> cases h <;> assumption

/-! ### A load -/

theorem magnitude_toNat (d : Delta) : (magnitude d).toNat = d.toInt.natAbs := by
  have h1 := BitVec.le_toInt d
  have h2 := BitVec.toInt_lt (x := d)
  simp only [magnitude, BitVec.toNat_ofNat]
  apply Nat.mod_eq_of_lt
  norm_num at h1 h2
  omega

theorem loadChannel_loaded (d : Delta) (x : Channel) : Loaded d x (loadChannel d x) := by
  refine ⟨magnitude_toNat d, fun h => ?_, fun h => ?_, fun h => ?_, rfl, rfl, rfl⟩
  · simp [loadDirection, h]
  · simp [loadDirection, h, not_lt.mpr h.le]
  · simp [loadDirection, h]

/-- The loop of loads, over any list of distinct channels. -/
theorem foldl_load_get (targets : Lanes) (c : Chan) :
    ∀ (l : List Chan) (s : State), l.Nodup →
      (l.foldl (fun s c => load c (targets.get c) s) s).ch.get c =
        if c ∈ l then loadChannel (targets.get c) (s.ch.get c) else s.ch.get c
  | [], s, _ => by simp
  | d :: l, s, h => by
    obtain ⟨hd, hl⟩ := List.nodup_cons.mp h
    rw [List.foldl_cons, foldl_load_get targets c l _ hl, load_ch, Six.get_set]
    by_cases hc : c = d
    · subst hc; simp [hd]
    · simp [hc]

theorem loadAll_get (targets : Lanes) (s : State) (c : Chan) :
    (loadAll targets s).ch.get c = loadChannel (targets.get c) (s.ch.get c) := by
  rw [loadAll, foldl_load_get targets c scanOrder s scanOrder_nodup, if_pos (mem_scanOrder c)]

/-- The loads change the channel records and nothing else. -/
theorem loadAll_frame (targets : Lanes) (s : State) :
    loadAll targets s = { s with ch := (loadAll targets s).ch } := rfl

/-! ### A pulse -/

theorem nextIndex_toNat (k : Config) (p : Phase) (d : Direction) :
    (nextIndex k p d).toNat = (p.toNat + if d = .cw then 1 else waveLen k - 1) % waveLen k := by
  unfold nextIndex waveLen
  cases k.variant <;> cases d <;> simp <;> omega

theorem offsetAfter_toInt (d : Direction) (o : Offset) :
    (offsetAfter d o).toInt = Int.bmod (o.toInt + if d = .cw then 1 else -1) (2 ^ 32) := by
  cases d
  · simp [offsetAfter, BitVec.toInt_add]
  · simp [offsetAfter, BitVec.toInt_sub]; rfl

theorem pulsedChannel_stepped (k : Config) (x : Channel) (h : 0 < x.stepsLeft.toNat) :
    Stepped k x (pulsedChannel k x) := by
  refine ⟨?_, offsetAfter_toInt _ _, nextIndex_toNat _ _ _, rfl, rfl⟩
  have := x.stepsLeft.isLt
  have h1 : (1 : Count).toNat = 1 := rfl
  simp only [pulsedChannel_stepsLeft, BitVec.toNat_sub, h1]
  omega

/-! ### A tick of all channels -/

/-- The loop of pulses, over any list of distinct channels. -/
theorem foldl_pulse (now : Time) :
    ∀ (l : List Chan) (s : State), l.Nodup →
      (∀ c, (l.foldl (pulseIfActive now) s).ch.get c =
        if c ∈ l ∧ active s c = true then pulsedChannel s.cfg (s.ch.get c) else s.ch.get c) ∧
      (l.foldl (pulseIfActive now) s).trace =
        s.trace ++ (l.filter (active s)).flatMap (fun c => pulseEvents s.cfg now (s.ch.get c)) ∧
      (∃ ch tr b, l.foldl (pulseIfActive now) s = { s with ch := ch, trace := tr, busOut := b })
  | [], s, _ => by simp; exact ⟨s.ch, s.trace, s.busOut, rfl⟩
  | d :: l, s, h => by
    obtain ⟨hd, hl⟩ := List.nodup_cons.mp h
    obtain ⟨hch, htr, ch, tr, b, hfr⟩ := foldl_pulse now l (pulseIfActive now s d) hl
    rw [List.foldl_cons]
    by_cases ha : active s d = true
    · have hp : pulseIfActive now s d = pulse now d s := by simp [pulseIfActive, ha]
      have hact : ∀ c, c ≠ d → active (pulse now d s) c = active s c := fun c hc => by
        simp [active, Six.get_set_ne _ _ hc]
      rw [hp] at hch htr hfr ⊢
      refine ⟨fun c => ?_, ?_, ch, tr, b, ?_⟩
      · rw [hch c]
        by_cases hc : c = d
        · subst hc; simp [hd, ha]
        · simp [hc, hact c hc]
      · have hf : l.filter (active (pulse now d s)) = l.filter (active s) :=
          List.filter_congr fun c hc => hact c (fun e => hd (e ▸ hc))
        have hm : (l.filter (active s)).flatMap (fun c => pulseEvents s.cfg now ((pulse now d s).ch.get c)) =
            (l.filter (active s)).flatMap (fun c => pulseEvents s.cfg now (s.ch.get c)) := by
          simp only [List.flatMap_def]
          congr 1
          refine List.map_congr_left fun c hc => ?_
          have hne : c ≠ d := fun e => hd (e ▸ (List.mem_filter.mp hc).1)
          simp [hne]
        rw [htr, hf, pulse_cfg, hm, List.filter_cons_of_pos ha, List.flatMap_cons, pulse_trace, List.append_assoc]
        rfl
      · rw [hfr]; rfl
    · have hp : pulseIfActive now s d = s := by simp [pulseIfActive, ha]
      rw [hp] at hch htr hfr ⊢
      refine ⟨fun c => ?_, ?_, ch, tr, b, hfr⟩
      · rw [hch c]
        by_cases hc : c = d
        · subst hc; simp [hd, ha]
        · simp [hc]
      · rw [htr, List.filter_cons_of_neg ha]

theorem tickBody_get (now : Time) (s : State) (c : Chan) :
    (tickBody now s).ch.get c = if active s c then pulsedChannel s.cfg (s.ch.get c) else s.ch.get c := by
  have h := (foldl_pulse now scanOrder (setLastStepTime now s) scanOrder_nodup).1 c
  have ha : active (setLastStepTime now s) c = active s c := rfl
  rw [tickBody, h, ha]
  simp

theorem tickBody_trace (now : Time) (s : State) : (tickBody now s).trace = s.trace ++ tickEvents now s :=
  (foldl_pulse now scanOrder (setLastStepTime now s) scanOrder_nodup).2.1

/-- A tick changes the channel records, the bus and `last_step_time`, and nothing else. -/
theorem tickBody_frame (now : Time) (s : State) :
    tickBody now s = { s with
      ch := (tickBody now s).ch, trace := (tickBody now s).trace, busOut := (tickBody now s).busOut, lastStepTime := now } := by
  obtain ⟨ch, tr, b, h⟩ := (foldl_pulse now scanOrder (setLastStepTime now s) scanOrder_nodup).2.2
  rw [tickBody, h]; rfl

theorem tickBody_ticked (now : Time) (s : State) : TickedAll now s (tickBody now s) := by
  refine ⟨fun c hc => ?_, fun c hc => ?_, ?_⟩
  · rw [tickBody_get, if_pos ((active_iff s c).mpr hc)]
    exact pulsedChannel_stepped _ _ hc
  · rw [tickBody_get, if_neg (fun h => hc ((active_iff s c).mp h))]
  · rw [tickBody_frame]

/-! ### Zeroing the offsets -/

theorem foldl_clearOffset_get (c : Chan) :
    ∀ (l : List Chan) (s : State),
      (l.foldl clearOffset s).ch.get c = if c ∈ l then { s.ch.get c with offset := 0 } else s.ch.get c
  | [], s => by simp
  | d :: l, s => by
    rw [List.foldl_cons, foldl_clearOffset_get c l]
    by_cases hc : c = d
    · subst hc; simp [clearOffset]
    · simp [clearOffset, hc]

/-! ### The writes of TORQUE -/

theorem foldl_torque (enabled : Bool) :
    ∀ (l : List Chan) (s : State),
      ∃ b, l.foldl (torqueChannel enabled) s = { s with
        busOut := b
        trace := s.trace ++ l.flatMap fun c =>
          [⟨(torquePattern s.cfg enabled (s.ch.get c) ||| (s.ch.get c).address) ||| s.cfg.strobeBit, none⟩,
           ⟨torquePattern s.cfg enabled (s.ch.get c) ||| (s.ch.get c).address, none⟩] }
  | [], s => ⟨s.busOut, by simp⟩
  | d :: l, s => by
    obtain ⟨b, h⟩ := foldl_torque enabled l (torqueChannel enabled s d)
    refine ⟨b, ?_⟩
    rw [List.foldl_cons, h]
    simp [torqueChannel, emit, busWrite]

/-! ### The engine -/

/-- What `busy` can be. -/
theorem busy_cases (s : State) : s.busy = .none ∨ (∃ c, s.busy = .one c) ∨ s.busy = .all := by
  cases s.busy <;> simp

theorem engine_of_none {s : State} (h : s.busy = .none) : engine s = s := by simp [engine, h]

theorem engine_of_one {s : State} {c : Chan} (h : s.busy = .one c) :
    engine s = if active s c then poll (tickOne c) s else complete s := by simp [engine, h]

theorem engine_of_all {s : State} (h : s.busy = .all) :
    engine s = if allDone s then complete s else poll tickBody s := by simp [engine, h]

/-- The tick of a DRIVE_ONE is a pulse of its channel after the sample is recorded. -/
theorem tickOne_eq (c : Chan) (now : Time) (s : State) : tickOne c now s = pulse now c (setLastStepTime now s) := rfl

end Sys2Proof.Machine
end

