-- ==== Sys2Proof/Laws/Step.lean ====
section
/-!
SUPPORT. What a step can do, said once: its equations in each situation, and the closure principle from which every
invariant follows: a property kept by the named operations is kept by every step and every run.
-/

namespace Sys2Proof.Machine

/-! ### The equations of a step -/

/-- With `rst` low a step is what the block does with that sample of `rst` consumed. -/
theorem step_of_rstLow {s : State} (h : RstLow s) : step s = advance { s with rstIn := s.rstIn.tail } := by
  unfold step takeRst
  rcases hr : s.rstIn with _ | ⟨_ | _, rest⟩
  · cases s; simp only at hr; subst hr; rfl
  · rfl
  · simp [RstLow, hr] at h

/-- With `rst` asserted a step is the reset, with that sample of `rst` consumed. -/
theorem step_of_rst {s : State} {rest : List Bool} (h : s.rstIn = true :: rest) :
    step s = .next (hardReset { s with rstIn := rest }) := by
  simp [step, takeRst, h]

theorem step_of_busy {s : State} (hr : RstLow s) (hb : s.busy ≠ .none) :
    step s = .next (engine { s with rstIn := s.rstIn.tail }) := by
  simp [step_of_rstLow hr, advance, cmdReady, hb]

theorem step_of_waiting {s : State} (hr : RstLow s) (hb : s.busy = .none) (hc : s.cmdIn = []) :
    step s = .next { s with rstIn := s.rstIn.tail } := by
  simp [step_of_rstLow hr, advance, cmdReady, hb, hc]

theorem step_of_word {s : State} {w : CommandWord} {rest : List CommandWord} (hr : RstLow s) (hb : s.busy = .none)
    (hc : s.cmdIn = w :: rest) : step s = accept w { s with rstIn := s.rstIn.tail, cmdIn := rest } := by
  simp [step_of_rstLow hr, advance, cmdReady, hb, hc]

theorem accept_of_command {w : CommandWord} {i : Instr} (s : State) (h : decode w = .command i) :
    accept w s = exec i s := by simp [accept, h]

theorem accept_of_illegal {w : CommandWord} {why : Illegal} (s : State) (h : decode w = .illegal why) :
    accept w s = .next (respond false 0 s) := by simp [accept, h]

/-! ### Closure -/

/-- A property that survives every named operation other than a load and the zeroing of offsets. -/
structure Kept (P : State → Prop) : Prop where
  inputs : ∀ s r c n d, P s → P { s with rstIn := r, cmdIn := c, nowIn := n, draws := d }
  answered : ∀ s ok d, P s → P (respond ok d s)
  intervalSet : ∀ s n, P s → P (setInterval n s)
  asyncSet : ∀ s a, P s → P (setAsync a s)
  busySet : ∀ s b, P s → P (setBusy b s)
  timeSet : ∀ s t, P s → P (setLastStepTime t s)
  pulsed : ∀ s now c, HasSteps s c → P s → P (pulse now c s)
  idled : ∀ s, P s → P (idle s)
  torqued : ∀ s e, P s → P (idle (torqueWrites e s))

variable {P : State → Prop}

theorem Kept.sample (h : Kept P) {s : State} (hs : P s) : P (sampleNow s).2 := by
  unfold sampleNow
  split
  · exact h.inputs s s.rstIn s.cmdIn s.nowIn _ hs
  · exact h.inputs s s.rstIn s.cmdIn _ s.draws hs

/-- A loop over channels keeps what each turn keeps. -/
theorem foldl_keeps {f : State → Chan → State} (hf : ∀ s c, P s → P (f s c)) :
    ∀ (l : List Chan) (s : State), P s → P (l.foldl f s)
  | [], _, hs => hs
  | d :: l, s, hs => foldl_keeps hf l (f s d) (hf s d hs)

theorem Kept.tickAll (h : Kept P) {s : State} (now : Time) (hs : P s) : P (tickBody now s) := by
  refine foldl_keeps (fun s c hs => ?_) _ _ (h.timeSet s now hs)
  unfold pulseIfActive
  split
  · next ha => exact h.pulsed s now c ((active_iff s c).mp ha) hs
  · exact hs

theorem Kept.completed (h : Kept P) {s : State} (hs : P s) : P (complete s) :=
  h.answered _ _ _ (h.busySet _ _ (h.idled _ hs))

theorem Kept.engineStep (h : Kept P) {s : State} (hs : P s) : P (engine s) := by
  unfold engine
  split
  · exact hs
  · next c _ =>
    split
    · next ha =>
      unfold poll
      split
      · refine h.pulsed _ _ _ ?_ (h.timeSet _ _ (h.sample hs))
        simpa [HasSteps, active] using ha
      · exact h.sample hs
    · exact h.completed hs
  · split
    · exact h.completed hs
    · unfold poll
      split
      · exact h.tickAll _ (h.sample hs)
      · exact h.sample hs

theorem Kept.tickCommand (h : Kept P) {s : State} (hs : P s) : P (tickRunning s) := by
  unfold tickRunning stopIfDone
  split
  · split
    · exact h.idled _ (h.asyncSet _ _ (h.tickAll _ (h.sample hs)))
    · exact h.tickAll _ (h.sample hs)
  · exact h.sample hs

/-- What each strobe pair of TORQUE and the idle write keep, TORQUE keeps. -/
theorem torque_keeps (hw : ∀ s e c, s.cfg.variant = .standard → P s → P (torqueChannel e s c))
    (hi : ∀ s, P s → P (idle s)) {s : State} (e : Bool) (hs : P s) : P (idle (torqueWrites e s)) := by
  refine hi _ ?_
  unfold torqueWrites
  split
  · next hv =>
    refine (foldl_keeps (P := fun s => s.cfg.variant = .standard ∧ P s) (fun s c hs => ?_) _ _ ⟨hv, hs⟩).2
    exact ⟨by simpa [torqueChannel] using hs.1, hw s e c hs.1 hs.2⟩
  · exact hs

/-- A command that neither loads a channel nor zeroes the offsets keeps what the named operations keep. -/
theorem Kept.exec_request (h : Kept P) {i : Instr} {s t : State} (hi : keepsRequest i = true) (hs : P s)
    (he : exec i s = .next t) : P t := by
  cases i with
  | setSpeed rpm =>
    simp only [exec, execSetSpeed] at he
    split at he
    · cases he
    · cases he; exact h.answered _ _ _ (h.intervalSet _ _ hs)
  | getOffsets => cases he; exact h.answered _ _ _ hs
  | resetOffsets => cases hi
  | driveOne c n => cases hi
  | driveAll ts => cases hi
  | tick =>
    simp only [exec, execTick] at he
    split at he
    · cases he; exact h.answered _ _ _ (h.tickCommand hs)
    · cases he; exact h.answered _ _ _ hs
    · cases he; exact h.answered _ _ _ hs
  | start ts => cases hi
  | pause => cases he; exact h.answered _ _ _ (h.asyncSet _ _ hs)
  | resume => cases he; exact h.answered _ _ _ (h.asyncSet _ _ hs)
  | stop => cases he; exact h.answered _ _ _ (h.asyncSet _ _ hs)
  | torque e => cases he; exact h.answered _ _ _ (h.torqued _ e hs)

/-- A step that accepts no load and no RESET_OFFSETS keeps what the named operations keep. -/
theorem Kept.step_request (h : Kept P) {s t : State} (hr : RstLow s)
    (hq : s.busy ≠ .none ∨ (∀ w ∈ s.cmdIn.head?, ∀ i, decode w = .command i → keepsRequest i = true))
    (hs : P s) (he : step s = .next t) : P t := by
  have hs' : P { s with rstIn := s.rstIn.tail } := h.inputs s _ s.cmdIn s.nowIn s.draws hs
  by_cases hb : s.busy = .none
  · rcases hc : s.cmdIn with _ | ⟨w, rest⟩
    · rw [step_of_waiting hr hb hc] at he
      cases he; exact hs'
    · rw [step_of_word hr hb hc] at he
      have hs'' : P { s with rstIn := s.rstIn.tail, cmdIn := rest } := h.inputs s _ _ s.nowIn s.draws hs
      rcases hd : decode w with i | why
      · rw [accept_of_command _ hd] at he
        refine h.exec_request (hq.resolve_left (fun n => n hb) w ?_ i hd) hs'' he
        simp [hc]
      · rw [accept_of_illegal _ hd] at he
        cases he; exact h.answered _ _ _ hs''
  · rw [step_of_busy hr hb] at he
    cases he; exact h.engineStep hs'

/-- A property that survives the loads, the zeroing of offsets and reset as well. -/
structure KeptByAll (P : State → Prop) : Prop extends Kept P where
  loaded : ∀ s c d, P s → P (load c d s)
  cleared : ∀ s c, P s → P (clearOffset s c)
  hardReset : ∀ s, P s → P (hardReset s)

theorem KeptByAll.loadAll (h : KeptByAll P) {s : State} (targets : Lanes) (hs : P s) : P (loadAll targets s) :=
  foldl_keeps (fun s c hs => h.loaded s c _ hs) _ _ hs

/-- Every command keeps what the named operations keep. -/
theorem KeptByAll.exec (h : KeptByAll P) {i : Instr} {s t : State} (hs : P s) (he : exec i s = .next t) : P t := by
  by_cases hi : keepsRequest i = true
  · exact h.exec_request hi hs he
  · cases i with
    | resetOffsets => cases he; exact h.answered _ _ _ (foldl_keeps (fun s c hs => h.cleared s c hs) _ _ hs)
    | driveOne n steps =>
      simp only [Machine.exec, execDriveOne] at he
      split at he
      · cases he; exact h.answered _ _ _ hs
      · split at he
        · cases he; exact h.answered _ _ _ hs
        · cases he; exact h.busySet _ _ (h.loaded _ _ _ hs)
    | driveAll ts => cases he; exact h.busySet _ _ (h.loadAll ts hs)
    | start ts => cases he; exact h.answered _ _ _ (h.asyncSet _ _ (h.loadAll ts hs))
    | _ => exact absurd rfl hi

/-- Every step keeps what the named operations keep. -/
theorem KeptByAll.step (h : KeptByAll P) {s t : State} (hs : P s) (he : step s = .next t) : P t := by
  by_cases hr : RstLow s
  · by_cases hb : s.busy = .none
    · rcases hc : s.cmdIn with _ | ⟨w, rest⟩
      · rw [step_of_waiting hr hb hc] at he
        cases he; exact h.inputs s _ s.cmdIn s.nowIn s.draws hs
      · rw [step_of_word hr hb hc] at he
        have hs' : P { s with rstIn := s.rstIn.tail, cmdIn := rest } := h.inputs s _ _ s.nowIn s.draws hs
        rcases hd : decode w with i | why
        · rw [accept_of_command _ hd] at he; exact h.exec hs' he
        · rw [accept_of_illegal _ hd] at he; cases he; exact h.answered _ _ _ hs'
    · rw [step_of_busy hr hb] at he
      cases he; exact h.engineStep (h.inputs s _ s.cmdIn s.nowIn s.draws hs)
  · rcases hc : s.rstIn with _ | ⟨_ | _, rest⟩
    · simp [RstLow, hc] at hr
    · simp [RstLow, hc] at hr
    · rw [step_of_rst hc] at he
      cases he; exact h.hardReset _ (h.inputs s _ s.cmdIn s.nowIn s.draws hs)

/-! ### Runs -/

@[simp] theorem run_zero (s : State) : run 0 s = .next s := rfl

theorem run_succ_of_step {n : Nat} {s u : State} (h : step s = .next u) : run (n + 1) s = run n u := by
  simp [run, h]

/-- A run is a first step and the run from there. -/
theorem run_succ {n : Nat} {s t : State} (h : run (n + 1) s = .next t) :
    ∃ u, step s = .next u ∧ run n u = .next t := by
  unfold run at h
  split at h
  · next u hu => exact ⟨u, hu, h⟩
  · cases h
  · cases h

/-- What every step keeps, every run keeps. -/
theorem run_keeps (h : ∀ s t, P s → step s = .next t → P t) :
    ∀ (n : Nat) {s t : State}, P s → run n s = .next t → P t
  | 0, _, _, hs, hr => by cases hr; exact hs
  | n + 1, _, _, hs, hr => by
    obtain ⟨u, hu, hr'⟩ := run_succ hr
    exact run_keeps h n (h _ _ hs hu) hr'

end Sys2Proof.Machine
end

