-- ==== Sys2Proof/Laws/Exec.lean ====
section
/-!
SUPPORT. What the engine, TICK and TORQUE do, said once on top of the shared operations: the fields a tick leaves, the
cases of TICK and of an engine step, and that a channel record moves by pulses only.
-/

namespace Sys2Proof.Machine

variable (s : State)

/-! ### Fields a tick of all channels and the end of a TICK leave -/

@[simp] theorem tickBody_cfg (now : Time) : (tickBody now s).cfg = s.cfg := by rw [tickBody_frame]
@[simp] theorem tickBody_asyncState (now : Time) : (tickBody now s).asyncState = s.asyncState := by rw [tickBody_frame]
@[simp] theorem tickBody_interval (now : Time) : (tickBody now s).interval = s.interval := by rw [tickBody_frame]
@[simp] theorem tickBody_busy (now : Time) : (tickBody now s).busy = s.busy := by rw [tickBody_frame]
@[simp] theorem tickBody_responses (now : Time) : (tickBody now s).responses = s.responses := by rw [tickBody_frame]
@[simp] theorem tickBody_rstIn (now : Time) : (tickBody now s).rstIn = s.rstIn := by rw [tickBody_frame]
@[simp] theorem tickBody_cmdIn (now : Time) : (tickBody now s).cmdIn = s.cmdIn := by rw [tickBody_frame]
@[simp] theorem tickBody_nowIn (now : Time) : (tickBody now s).nowIn = s.nowIn := by rw [tickBody_frame]
@[simp] theorem tickBody_draws (now : Time) : (tickBody now s).draws = s.draws := by rw [tickBody_frame]
@[simp] theorem tickBody_lastStepTime (now : Time) : (tickBody now s).lastStepTime = now := by rw [tickBody_frame]

@[simp] theorem stopIfDone_cfg : (stopIfDone s).cfg = s.cfg := by unfold stopIfDone; split <;> rfl
@[simp] theorem stopIfDone_ch : (stopIfDone s).ch = s.ch := by unfold stopIfDone; split <;> rfl
@[simp] theorem stopIfDone_interval : (stopIfDone s).interval = s.interval := by unfold stopIfDone; split <;> rfl
@[simp] theorem stopIfDone_lastStepTime : (stopIfDone s).lastStepTime = s.lastStepTime := by unfold stopIfDone; split <;> rfl
@[simp] theorem stopIfDone_busy : (stopIfDone s).busy = s.busy := by unfold stopIfDone; split <;> rfl
@[simp] theorem stopIfDone_responses : (stopIfDone s).responses = s.responses := by unfold stopIfDone; split <;> rfl
@[simp] theorem stopIfDone_rstIn : (stopIfDone s).rstIn = s.rstIn := by unfold stopIfDone; split <;> rfl
@[simp] theorem stopIfDone_cmdIn : (stopIfDone s).cmdIn = s.cmdIn := by unfold stopIfDone; split <;> rfl
@[simp] theorem stopIfDone_nowIn : (stopIfDone s).nowIn = s.nowIn := by unfold stopIfDone; split <;> rfl
@[simp] theorem stopIfDone_draws : (stopIfDone s).draws = s.draws := by unfold stopIfDone; split <;> rfl

theorem stopIfDone_asyncState : (stopIfDone s).asyncState = if allDone s then .stopped else s.asyncState := by
  unfold stopIfDone; split <;> rfl

theorem gateOpen_sampleNow (now : Time) : gateOpen now (sampleNow s).2 = gateOpen now s := by simp [gateOpen]

/-- The loop of pulses only adds to the trace, and leaves on the bus the last byte it added. -/
theorem foldl_pulse_busOut (now : Time) : ∀ (l : List Chan) (s : State),
    ∃ r, (l.foldl (pulseIfActive now) s).trace = s.trace ++ r ∧
      (l.foldl (pulseIfActive now) s).busOut = lastByte r s.busOut
  | [], s => ⟨[], by simp, by simp [lastByte]⟩
  | d :: l, s => by
    obtain ⟨r, htr, hb⟩ := foldl_pulse_busOut now l (pulseIfActive now s d)
    rw [List.foldl_cons, htr, hb]
    by_cases ha : active s d = true
    · have hp : pulseIfActive now s d = pulse now d s := by simp [pulseIfActive, ha]
      rw [hp, pulse_trace, pulse_busOut]
      refine ⟨_, List.append_assoc _ _ _, ?_⟩
      rcases List.eq_nil_or_concat r with rfl | ⟨r', e, rfl⟩ <;> simp [lastByte, List.getLast?_cons]
    · have hp : pulseIfActive now s d = s := by simp [pulseIfActive, ha]
      rw [hp]
      exact ⟨r, rfl, rfl⟩

/-- After a tick the bus shows the last byte the tick wrote, or what it showed before. -/
theorem tickBody_busOut (now : Time) : (tickBody now s).busOut = lastByte (tickEvents now s) s.busOut := by
  obtain ⟨r, htr, hb⟩ := foldl_pulse_busOut now scanOrder (setLastStepTime now s)
  have hr : r = tickEvents now s := List.append_cancel_left (htr.symm.trans (tickBody_trace now s))
  rw [tickBody, hb, hr, setLastStepTime_busOut]

/-- A tick, with every field it writes but the channel records in closed form. -/
theorem tickBody_eq (now : Time) : tickBody now s = { s with
    ch := (tickBody now s).ch, lastStepTime := now, trace := s.trace ++ tickEvents now s
    busOut := lastByte (tickEvents now s) s.busOut } := by
  have h := tickBody_frame now s
  rw [tickBody_trace, tickBody_busOut] at h
  exact h

/-- After a tick all channels are done iff none had more than one step left. -/
theorem allDone_tickBody (now : Time) : allDone (tickBody now s) = true ↔ ∀ c, (s.ch.get c).stepsLeft.toNat ≤ 1 := by
  rw [allDone_iff]
  have ht := tickBody_ticked now s
  refine forall_congr' fun c => ?_
  by_cases hc : HasSteps s c
  · have := (ht.1 c hc).1; unfold HasSteps; omega
  · have := ht.2.1 c hc; unfold HasSteps at *; rw [this]; omega

variable {s} {t : State}

/-! ### The cases of TICK -/

theorem exec_tick_cases (h : exec .tick s = .next t) :
    (s.asyncState ≠ .running ∧ t = respond true 0 s) ∨
    (s.asyncState = .running ∧ gateOpen (sampleNow s).1 s = false ∧ t = respond true 0 (sampleNow s).2) ∨
    (s.asyncState = .running ∧ gateOpen (sampleNow s).1 s = true ∧
      t = respond true 0 (stopIfDone (tickBody (sampleNow s).1 (sampleNow s).2))) := by
  by_cases hr : s.asyncState = .running
  · have he : exec .tick s = .next (respond true 0 (tickRunning s)) := by simp [exec, execTick, hr]
    rw [he, tickRunning, gateOpen_sampleNow] at h
    cases h
    by_cases hg : gateOpen (sampleNow s).1 s = true <;> simp [hr, hg]
  · have he : exec .tick s = .next (respond true 0 s) := by
      simp only [exec, execTick]
      split
      · next h' => exact absurd h' hr
      · rfl
      · rfl
    rw [he] at h; cases h; exact .inl ⟨hr, rfl⟩

/-! ### The writes of TORQUE -/

/-- TORQUE writes the bus and nothing else. -/
theorem torqueWrites_frame (e : Bool) (s : State) : ∃ b tr, torqueWrites e s = { s with busOut := b, trace := tr } := by
  unfold torqueWrites
  split
  · obtain ⟨b, hb⟩ := foldl_torque e scanOrder s; exact ⟨_, _, hb⟩
  · exact ⟨s.busOut, s.trace, rfl⟩

/-! ### The cases of the engine -/

theorem engine_one_cases {c : Chan} (hb : s.busy = .one c) :
    (¬ HasSteps s c ∧ engine s = complete s) ∨
    (HasSteps s c ∧ gateOpen (sampleNow s).1 s = false ∧ engine s = (sampleNow s).2) ∨
    (HasSteps s c ∧ gateOpen (sampleNow s).1 s = true ∧ engine s = tickOne c (sampleNow s).1 (sampleNow s).2) := by
  rw [engine_of_one hb, ← active_iff, poll, gateOpen_sampleNow]
  by_cases ha : active s c = true <;> by_cases hg : gateOpen (sampleNow s).1 s = true <;> simp [ha, hg]

theorem engine_all_cases (hb : s.busy = .all) :
    ((∀ c, ¬ HasSteps s c) ∧ engine s = complete s) ∨
    ((∃ c, HasSteps s c) ∧ gateOpen (sampleNow s).1 s = false ∧ engine s = (sampleNow s).2) ∨
    ((∃ c, HasSteps s c) ∧ gateOpen (sampleNow s).1 s = true ∧
      engine s = tickBody (sampleNow s).1 (sampleNow s).2) := by
  have hd : (∃ c, HasSteps s c) ↔ ¬ allDone s = true := by rw [allDone_iff]; simp
  rw [engine_of_all hb, hd, ← allDone_iff, poll, gateOpen_sampleNow]
  by_cases ha : allDone s = true <;> by_cases hg : gateOpen (sampleNow s).1 s = true <;> simp [ha, hg]

/-! ### Channel records move by pulses only -/

/-- `y` is the channel record `x`, or `x` pulsed where it has steps left. -/
def Moved (k : Config) (x y : Channel) : Prop := y = x ∨ (0 < x.stepsLeft.toNat ∧ y = pulsedChannel k x)

theorem tickBody_moved (now : Time) (s : State) (c : Chan) : Moved s.cfg (s.ch.get c) ((tickBody now s).ch.get c) := by
  rw [tickBody_get]
  split
  · next h => exact .inr ⟨(active_iff s c).mp h, rfl⟩
  · exact .inl rfl

theorem tick_moved (h : exec .tick s = .next t) (c : Chan) : Moved s.cfg (s.ch.get c) (t.ch.get c) := by
  rcases exec_tick_cases h with ⟨-, rfl⟩ | ⟨-, -, rfl⟩ | ⟨-, -, rfl⟩
  · exact .inl rfl
  · exact .inl (by simp)
  · simpa using tickBody_moved (sampleNow s).1 (sampleNow s).2 c

theorem engine_moved (s : State) (c : Chan) : Moved s.cfg (s.ch.get c) ((engine s).ch.get c) := by
  rcases busy_cases s with hb | ⟨d, hb⟩ | hb
  · rw [engine_of_none hb]; exact .inl rfl
  · rcases engine_one_cases hb with ⟨-, he⟩ | ⟨-, -, he⟩ | ⟨hs, -, he⟩ <;> rw [he]
    · exact .inl rfl
    · exact .inl (by simp)
    · rw [tickOne_eq, pulse_ch, Six.get_set]
      split
      · next h => subst h; exact .inr ⟨hs, by simp⟩
      · exact .inl (by simp)
  · rcases engine_all_cases hb with ⟨-, he⟩ | ⟨-, -, he⟩ | ⟨-, -, he⟩ <;> rw [he]
    · exact .inl rfl
    · exact .inl (by simp)
    · simpa using tickBody_moved (sampleNow s).1 (sampleNow s).2 c

end Sys2Proof.Machine
end

