-- ==== Sys2Proof/Laws/PerInstr.lean ====
section
/-!
SUPPORT. What holds of every command as syntax, one lemma for each constructor: the header of its word (R91, R92).
-/

namespace Sys2Proof.Laws.Header

/-- The word of a command carries the command's opcode, a clear `rsv` bit, and a channel number of 0 unless it is of
format C (R91, R92). -/
def Statement (i : Instr) : Prop :=
  opField (encode i) = opcode i ∧ rsvField (encode i) = 0 ∧ (opcode i ≠ 0x4 → chanField (encode i) = 0)

theorem setSpeed (rpm : Rpm) : Statement (.setSpeed rpm) := by simp [Statement, encode]

theorem getOffsets : Statement .getOffsets := by simp [Statement, encode]

theorem resetOffsets : Statement .resetOffsets := by simp [Statement, encode]

theorem driveOne (chan : BitVec 3) (steps : Delta) : Statement (.driveOne chan steps) := by
  simp [Statement, encode, opcode]

theorem driveAll (targets : Lanes) : Statement (.driveAll targets) := by simp [Statement, encode]

theorem tick : Statement .tick := by simp [Statement, encode]

theorem start (targets : Lanes) : Statement (.start targets) := by simp [Statement, encode]

theorem pause : Statement .pause := by simp [Statement, encode]

theorem resume : Statement .resume := by simp [Statement, encode]

theorem stop : Statement .stop := by simp [Statement, encode]

theorem torque (enabled : Bool) : Statement (.torque enabled) := by simp [Statement, encode]

end Sys2Proof.Laws.Header
end

