-- ==== Sys2Proof/Tests/Slice0.lean ====
section
/-!
SUPPORT. Tests on fixed values taken from spec/95_test_vectors.md and from the examples in the rules, and the witnesses
that the hypotheses of the obligations can be met.
-/

namespace Sys2Proof.Tests

open Sys2Proof.Machine

/-! ### Helpers -/

/-- Whether an outcome is a next state. -/
def isNext (o : Host.Outcome State Fault Refusal) : Bool :=
  match o with
  | .next _ => true
  | .fault _ => false
  | .refused _ => false

/-- The next state, or a default where there is none. -/
def after (o : Host.Outcome State Fault Refusal) (d : State) : State :=
  match o with
  | .next t => t
  | .fault _ => d
  | .refused _ => d

theorem next_after {o : Host.Outcome State Fault Refusal} (d : State) (h : isNext o = true) : o = .next (after o d) := by
  cases o with
  | next t => rfl
  | fault f => cases h
  | refused r => cases h

/-- The instances the vectors are stated on. -/
def direct : Config := Config.default
def reversed : Config := { Config.default with addrScheme := .reversed }
def prototype : Config := { Config.default with variant := .prototype }

/-- A channel record, given by its steps left, direction, phase index and offset. -/
def chan (k : Config) (c : Chan) (steps : Count) (d : Direction) (p : Phase) (o : Offset) : Channel where
  address := addrOf k c
  stepsLeft := steps
  direction := d
  phaseIndex := p
  offset := o

/-- An instance after reset with some channel records and a listed clock. -/
def place (k : Config) (l : List (Chan × Channel)) (now : List Time) : State :=
  { State.resetOf k with ch := l.foldl (fun x p => x.set p.1 p.2) (State.resetOf k).ch, nowIn := now }

/-- Running with interval 25, last tick at 0, channel 1 with `n` steps left clockwise from phase 0. -/
def running (n : Count) (now : List Time) : State :=
  { place direct [(.c1, chan direct .c1 n .cw 0 0)] now with asyncState := .running, interval := 25 }

/-- A DRIVE_ONE of channel 2 in progress with `n` steps left counter-clockwise, interval 25. -/
def driving (n : Count) (now : List Time) : State :=
  { place direct [(.c2, chan direct .c2 n .ccw 0 0)] now with busy := .one .c2, interval := 25 }

/-- A DRIVE_ALL in progress, channels 1 and 2 with `n` and `m` steps left, interval 25. -/
def drivingAll (n m : Count) (now : List Time) : State :=
  { place direct [(.c1, chan direct .c1 n .cw 0 0), (.c2, chan direct .c2 m .ccw 0 0)] now with
    busy := .all, interval := 25 }

/-- The host presents these words, in order. -/
def presented (ws : List CommandWord) (s : State) : State := { s with cmdIn := ws }

/-- What the meaning of a command leaves. -/
def done (i : Instr) (s : State) : State := after (exec i s) s

/-- What a step leaves. -/
def stepped (s : State) : State := after (step s) s

/-- The responses' ok bits. -/
def oks (s : State) : List Bool := s.responses.map Response.ok

/-- The bytes on the bus. -/
def bytes (s : State) : List Byte := traceBytes s.trace

/-! ### Well-formedness: the one check, and a term it refuses -/

theorem test_wf_refuses_speed_zero : (Instr.setSpeed 0).wellFormed = false := by decide
theorem test_wf_accepts_speed_one : (Instr.setSpeed 1).wellFormed = true := by decide
theorem test_wf_accepts_ignored_drive : (Instr.driveOne 7 0).wellFormed = true := by decide

/-! ### Decoding (95_test_vectors.md part 2.2) -/

theorem test_decode_set_speed : decode 0x1000000000000000000000FFFF = .command (.setSpeed 65535) := by decide
theorem test_decode_get_offsets : decode 0x20000000000000000000000000 = .command (.getOffsets) := by decide
theorem test_decode_reset_offsets : decode 0x30000000000000000000000000 = .command (.resetOffsets) := by decide
theorem test_decode_drive_one : decode 0x46000000000000000000008000 = .command (.driveOne 6 (-32768)) := by decide
theorem test_decode_drive_one_ignored : decode 0x47000000000000000000000005 = .command (.driveOne 7 5) := by decide
theorem test_decode_drive_all : decode 0x50FFF90003000A0000FFFC000A = .command (.driveAll ⟨10, -4, 0, 10, 3, -7⟩) := by decide
theorem test_decode_tick : decode 0x60000000000000000000000000 = .command (.tick) := by decide
theorem test_decode_start : decode 0x70FFFF00000000000000000000 = .command (.start ⟨0, 0, 0, 0, 0, -1⟩) := by decide
theorem test_decode_pause : decode 0x80000000000000000000000000 = .command (.pause) := by decide
theorem test_decode_resume : decode 0x90000000000000000000000000 = .command (.resume) := by decide
theorem test_decode_stop : decode 0xA0000000000000000000000000 = .command (.stop) := by decide
theorem test_decode_torque_on : decode 0xB0000000000000000000000001 = .command (.torque true) := by decide
theorem test_decode_torque_off : decode 0xB0000000000000000000000000 = .command (.torque false) := by decide

/-- A word laid out bit by bit from R91 and R92: `op` 0100, `rsv` 0, `chan` 011, lanes 6 to 2 of 0, lane 1 of -20. -/
theorem test_decode_drive_one_bits :
    decode (0b0100#4 ++ 0b0#1 ++ 0b011#3 ++ 0#16 ++ 0#16 ++ 0#16 ++ 0#16 ++ 0#16 ++ 0b1111111111101100#16) =
      .command (.driveOne 3 (-20)) := by decide

theorem test_illegal_op_0 : decode 0x00000000000000000000000000 = .illegal .reservedOp := by decide
theorem test_illegal_op_c : decode 0xC0000000000000000000000000 = .illegal .reservedOp := by decide
theorem test_illegal_op_f : decode 0xF0000000000000000000000000 = .illegal .reservedOp := by decide
theorem test_illegal_rsv : decode 0x68000000000000000000000000 = .illegal .reservedBit := by decide
theorem test_illegal_chan_n : decode 0x61000000000000000000000000 = .illegal .chanNotZero := by decide
theorem test_illegal_lane_n : decode 0x60000000000000000000000001 = .illegal .laneNotZero := by decide
theorem test_illegal_lane_s : decode 0x10000000000000000000010032 = .illegal .laneNotZero := by decide
theorem test_illegal_torque_operand : decode 0xB0000000000000000000000002 = .illegal .torqueOperand := by decide
theorem test_illegal_lane_c : decode 0x41000100000000000000000003 = .illegal .laneNotZero := by decide
theorem test_illegal_chan_v : decode 0x51000000000000000000000001 = .illegal .chanNotZero := by decide

theorem test_table_word : decodeTableWord 104 0x41000000000000000000000003 = some (.driveOne 1 3) := by decide
theorem test_table_word_illegal : decodeTableWord 104 0 = none := by decide

/-! ### Primitives (95_test_vectors.md part 2.1) -/

theorem test_interval : [1, 50, 100, 1250, 1251, 65535].map (intervalOf direct) = [1250, 25, 12, 1, 0, 0] := by decide
theorem test_interval_others :
    intervalOf { direct with stepsPerRev := 200 } 7 = 42 ∧ intervalOf { direct with stepsPerRev := 7 } 11 = 779 := by
  decide
theorem test_gate :
    mayStep 25 0 25 = true ∧ mayStep 24 0 25 = false ∧ mayStep 0 0 1 = false ∧ mayStep 0 0 0 = true := by decide
theorem test_gate_wraps :
    mayStep 5 0xFFFFFFF0 25 = false ∧ mayStep 9 0xFFFFFFF0 25 = true ∧ mayStep 99 100 25 = true := by decide
theorem test_next_phase_prototype :
    [nextPhase prototype 0 .cw, nextPhase prototype 1 .cw, nextPhase prototype 0 .ccw, nextPhase prototype 1 .ccw] =
      [(1, 0x10), (0, 0x00), (1, 0x30), (0, 0x20)] := by decide
theorem test_next_phase_standard_ccw :
    [nextPhase direct 0 .ccw, nextPhase direct 3 .ccw, nextPhase direct 2 .ccw, nextPhase direct 1 .ccw] =
      [(3, 0x90), (2, 0x30), (1, 0x60), (0, 0xC0)] := by decide
theorem test_load_extreme : loadChannel (-32768) (chan direct .c1 9 .ccw 0 0) = chan direct .c1 32768 .ccw 0 0 := by decide
theorem test_load_zero : loadChannel 0 (chan direct .c1 9 .ccw 0 0) = chan direct .c1 0 .ccw 0 0 := by decide
theorem test_pulse_wraps_offset :
    pulsedChannel direct (chan direct .c1 1 .cw 2 0x7FFFFFFF) = chan direct .c1 0 .cw 3 0x80000000 := by decide
theorem test_pulse_bytes_reversed :
    bytes (pulse 0 .c6 (place reversed [(.c6, chan reversed .c6 1 .cw 0 0)] [])) = [0x67, 0x66] := by decide
theorem test_tick_body : bytes (tickBody 25 (drivingAll 1 1 [])) = [0x63, 0x62, 0x95, 0x94] := by decide
theorem test_tick_body_idle : (tickBody 40 State.reset).lastStepTime = 40 ∧ bytes (tickBody 40 State.reset) = [] := by
  decide

/-! ### One instruction each (95_test_vectors.md parts 2.3 to 2.7) -/

theorem test_set_speed : (done (.setSpeed 50) State.reset).interval = 25 := by decide
theorem test_set_speed_zero : exec (.setSpeed 0) State.reset = .fault .speedZero := by rfl

/-- Offsets 3 and -4 on channels 1 and 2. -/
def offset34 : State := place direct [(.c1, chan direct .c1 0 .cw 3 3), (.c2, chan direct .c2 2 .cw 0 (-4))] []

theorem test_get_offsets :
    (done .getOffsets offset34).responses = [⟨true, 0xFFFFFFFC00000003⟩] := by decide
theorem test_reset_offsets :
    (done .resetOffsets offset34).ch.v1 = chan direct .c1 0 .cw 3 0 ∧
    (done .resetOffsets offset34).ch.v2 = chan direct .c2 2 .cw 0 0 := by decide

theorem test_drive_one_accepts :
    (done (.driveOne 3 (-20)) State.reset).ch.v3 = chan direct .c3 20 .ccw 0 0 ∧
    (done (.driveOne 3 (-20)) State.reset).busy = .one .c3 := by decide
theorem test_drive_one_ignored :
    done (.driveOne 4 0) State.reset = { State.reset with responses := [⟨true, 0⟩] } := by decide
theorem test_drive_all_clears_stale :
    (done (.driveAll noLanes) offset34).ch.v2 = chan direct .c2 0 .cw 0 (-4) ∧
    (done (.driveAll noLanes) offset34).busy = .all := by decide
theorem test_drive_all_accepts :
    (done (.driveAll ⟨10, -4, 0, 10, 3, -7⟩) State.reset).ch.v6 = chan direct .c6 7 .ccw 0 0 := by decide

theorem test_tick_not_last : bytes (done .tick (running 2 [30])) = [0x63, 0x62] := by decide
theorem test_tick_last :
    bytes (done .tick (running 1 [30])) = [0x63, 0x62, 0x01] ∧ (done .tick (running 1 [30])).asyncState = .stopped := by
  decide
theorem test_start :
    (done (.start ⟨5, 0, 0, 0, 0, 0⟩) State.reset).ch.v1 = chan direct .c1 5 .cw 0 0 ∧
    (done (.start ⟨5, 0, 0, 0, 0, 0⟩) State.reset).asyncState = .running := by decide
theorem test_pause_running : (done .pause (running 5 [])).asyncState = .paused := by decide
theorem test_pause_stopped : oks (done .pause State.reset) = [false] := by decide
theorem test_resume_paused :
    (done .resume { running 5 [] with asyncState := .paused }).asyncState = .running := by decide
theorem test_resume_stopped : oks (done .resume State.reset) = [false] := by decide
theorem test_stop :
    (done .stop (running 5 [])).asyncState = .stopped ∧ (done .stop (running 5 [])).ch = (running 5 []).ch := by decide
theorem test_torque_on :
    bytes (done (.torque true) (place direct [(.c1, chan direct .c1 0 .cw 3 0)] [])) =
      [0x93, 0x92, 0xC5, 0xC4, 0xC7, 0xC6, 0xC9, 0xC8, 0xCB, 0xCA, 0xCD, 0xCC, 0x01] := by decide
theorem test_torque_off_reversed :
    bytes (done (.torque false) (State.resetOf reversed)) =
      [0x09, 0x08, 0x05, 0x04, 0x0D, 0x0C, 0x03, 0x02, 0x0B, 0x0A, 0x07, 0x06, 0x01] := by decide

/-! ### One step of the machine -/

/-- A poll with the gate open pulses the commanded channel: phase 0 counter-clockwise gives 0x90, address 0x04. -/
theorem test_poll_open : bytes (stepped (driving 1 [30])) = [0x95, 0x94] := by decide
theorem test_poll_closed : stepped (driving 1 [24]) = driving 1 [] := by decide
theorem test_completion : bytes (stepped (driving 0 [])) = [0x01] ∧ (stepped (driving 0 [])).busy = .none := by decide
theorem test_poll_prototype :
    bytes (stepped { place prototype [(.c2, chan prototype .c2 2 .cw 0 0)] [0] with busy := .one .c2 }) =
      [0x15, 0x14] := by decide
theorem test_illegal_word_answers_no :
    stepped (presented [0x61000000000000000000000000] State.reset) =
      { State.reset with responses := [⟨false, 0⟩] } := by decide
theorem test_fetch_word :
    (stepped (State.reset.withFetchWord 104 0x10000000000000000000000032)).interval = 25 := by decide
theorem test_reset_abandons_a_drive :
    stepped { driving 3 [30] with rstIn := [true] } = place direct [] [30] := by decide


/-! ### Witnesses: the hypotheses of each obligation can be met together -/

theorem legal_of {s : State} (h1 : s.cfg.valid = true)
    (h2 : (scanOrder.all fun c => decide ((s.ch.get c).stepsLeft.toNat ≤ 32768) &&
      decide ((s.ch.get c).phaseIndex.toNat < waveLen s.cfg) && decide ((s.ch.get c).address = addrOf s.cfg c)) = true)
    (h3 : asyncStateOut s ≠ 3) : Legal s := by
  refine ⟨h1, fun c => ?_, h3⟩
  have hc := List.all_eq_true.mp h2 c (by cases c <;> decide)
  simpa [ChannelLegal, and_assoc] using hc

theorem witness_EncodeOfDecode : decode 0x41000000000000000000000003 = .command (.driveOne 1 3) := by decide

theorem witness_MatchAndMaskPartitionWords :
    (⟨"TORQUE", 0xB0000000000000000000000000, 0xFFFFFFFFFFFFFFFFFFFFFFFFFE⟩ : TableRow) ∈ opcodeTable ∧
    (0xB0000000000000000000000001 : CommandWord) &&& 0xFFFFFFFFFFFFFFFFFFFFFFFFFE = 0xB0000000000000000000000000 := by
  decide

theorem witness_IllegalWordsDoNothing : IllegalWord 0x61000000000000000000000000 := by unfold IllegalWord; decide

theorem witness_StepRunsDecodedCommand :
    let s := presented [0x60000000000000000000000000] (running 1 [30])
    s.busy = .none ∧ RstLow s ∧ s.cmdIn = [0x60000000000000000000000000] ∧
      decode 0x60000000000000000000000000 = .command .tick := by unfold RstLow; decide

theorem witness_StepRunsDecodedCommand_illegal :
    let s := presented [0x61000000000000000000000000] (running 1 [30])
    s.busy = .none ∧ RstLow s ∧ s.cmdIn = [0x61000000000000000000000000] ∧ IllegalWord 0x61000000000000000000000000 := by
  unfold RstLow IllegalWord; decide

theorem witness_StepWaitsForCommand : State.reset.busy = .none ∧ RstLow State.reset ∧ State.reset.cmdIn = [] := by
  unfold RstLow; decide

theorem witness_BusyPortAcceptsNothing : (driving 1 [30]).busy ≠ .none ∧ RstLow (driving 1 [30]) := by
  unfold RstLow; decide

theorem witness_OneResponsePerCommand :
    RstLow (driving 1 [30]) ∧ step (driving 1 [30]) = .next (stepped (driving 1 [30])) := by
  unfold RstLow; exact ⟨by decide, next_after _ (by decide)⟩

theorem witness_ResetInputResets : ({ driving 3 [30] with rstIn := [true] } : State).rstIn = true :: [] := by decide

/-- Both sides of the boundary at which the interval becomes 0. -/
theorem witness_IntervalIsQuotient :
    direct.valid = true ∧ (1250 : Rpm) ≠ 0 ∧ (1251 : Rpm) ≠ 0 ∧ ¬ 60000 / direct.stepsPerRev < (1250 : Rpm).toNat ∧
      60000 / direct.stepsPerRev < (1251 : Rpm).toNat := by decide

theorem witness_GateIsModularDifference : (0 : Time).toNat ≤ (25 : Time).toNat := by decide

theorem witness_AddressTable :
    (direct.addrShift = 1 ∧ direct.addrScheme = .direct) ∧ (reversed.addrShift = 1 ∧ reversed.addrScheme = .reversed) := by
  decide

theorem witness_AddressesDistinct : direct.valid = true ∧ addrOf direct .c6 = addrOf direct .c6 := by decide

theorem witness_NextPhaseStandard : direct.variant = .standard ∧ direct.valid = true := by decide

theorem witness_NextPhasePrototype : prototype.variant = .prototype ∧ (1 : Phase).toNat < 2 ∧ prototype.valid = true := by
  decide

theorem witness_EmitIsStrobePair : direct.valid = true ∧ CommandByte direct 0x62 :=
  ⟨by decide, 0x60, .c1, by decide, by decide⟩

theorem witness_PulseEffect : HasSteps (running 1 []) .c1 ∧ Chan.c2 ≠ Chan.c1 := by unfold HasSteps; decide

/-- The three signs of a delta, at their extremes. -/
theorem witness_LoadEffect :
    0 < (32767 : Delta).toInt ∧ (-32768 : Delta).toInt < 0 ∧ (0 : Delta).toInt = 0 ∧ Chan.c2 ≠ Chan.c1 := by decide

theorem witness_TickBodyEffect : HasSteps (running 1 []) .c1 ∧ ¬ HasSteps (running 1 []) .c2 := by
  unfold HasSteps; decide

theorem witness_PhaseAfterPulses :
    direct.variant = .standard ∧ (chan direct .c1 0 .cw 0 0).phaseIndex = 0 ∧ (chan direct .c1 0 .cw 0 0).direction = .cw ∧
      (chan direct .c1 0 .ccw 0 0).phaseIndex = 0 ∧ (chan direct .c1 0 .ccw 0 0).direction = .ccw := by decide

theorem witness_RoundTripLaw :
    (chan prototype .c1 0 .cw 1 0x7FFFFFFF).phaseIndex.toNat < waveLen prototype ∧
      (chan prototype .c1 0 .cw 1 0x7FFFFFFF).direction = .cw := by decide

theorem witness_SetSpeedResult :
    (65535 : Rpm) ≠ 0 ∧ exec (.setSpeed 65535) State.reset = .next (done (.setSpeed 65535) State.reset) ∧
      State.reset.cfg.stepsPerRev = 48 := ⟨by decide, next_after _ (by decide), by decide⟩

/-- Each of the three reasons to ignore a DRIVE_ONE, the other two absent. -/
theorem witness_IgnoredDriveOne :
    ((0 : BitVec 3) = 0 ∧ (5 : Delta) ≠ 0) ∧ ((7 : BitVec 3) = 7 ∧ (5 : Delta) ≠ 0) ∧
      ((0 : Delta) = 0 ∧ (4 : BitVec 3) ≠ 0 ∧ (4 : BitVec 3) ≠ 7) := by decide

theorem witness_DriveOneAccepted : (-32768 : Delta) ≠ 0 ∧ Chan.c2 ≠ Chan.c1 := by decide

theorem witness_EngineSteps_one :
    RstLow (driving 1 [24]) ∧ (driving 1 [24]).busy = .one .c2 ∧ HasSteps (driving 1 [24]) .c2 ∧
      mayStep (sampleNow (driving 1 [24])).1 0 25 = false ∧ mayStep (sampleNow (driving 1 [25])).1 0 25 = true ∧
      ¬ HasSteps (driving 0 []) .c2 := by unfold RstLow HasSteps; decide

theorem witness_EngineSteps_all :
    RstLow (drivingAll 1 2 [24]) ∧ (drivingAll 1 2 [24]).busy = .all ∧ (∃ c, HasSteps (drivingAll 1 2 [24]) c) ∧
      mayStep (sampleNow (drivingAll 1 2 [24])).1 0 25 = false ∧
      mayStep (sampleNow (drivingAll 1 2 [25])).1 0 25 = true ∧ ∀ c, ¬ HasSteps (drivingAll 0 0 []) c :=
  ⟨by unfold RstLow; decide, by decide, ⟨.c1, by unfold HasSteps; decide⟩, by decide, by decide,
    fun c => by cases c <;> (unfold HasSteps; decide)⟩

/-- DRIVE_ONE 2, -1 from reset: acceptance, one poll, completion. -/
def driveOneRun : State := presented [encode (.driveOne (chanNumber .c2) (-1))] (place direct [] [0])

theorem witness_DriveOneIssuesExactPulses :
    Legal driveOneRun ∧ driveOneRun.busy = .none ∧ driveOneRun.rstIn = [] ∧ (-1 : Delta) ≠ 0 ∧
      driveOneRun.cmdIn = [encode (.driveOne (chanNumber .c2) (-1))] ∧
      run 3 driveOneRun = .next (after (run 3 driveOneRun) driveOneRun) ∧
      (after (run 3 driveOneRun) driveOneRun).cmdIn = [] ∧ (after (run 3 driveOneRun) driveOneRun).busy = .none :=
  ⟨legal_of (by decide) (by decide) (by decide), by decide, by decide, by decide, by decide,
    next_after _ (by decide), by decide, by decide⟩

/-- DRIVE_ALL +1, 0, 0, 0, 0, -1 from reset: acceptance, one poll, completion. -/
def driveAllRun : State := presented [encode (.driveAll ⟨1, 0, 0, 0, 0, -1⟩)] (place direct [] [0])

theorem witness_DriveAllIssuesExactPulses :
    Legal driveAllRun ∧ driveAllRun.busy = .none ∧ driveAllRun.rstIn = [] ∧
      driveAllRun.cmdIn = [encode (.driveAll ⟨1, 0, 0, 0, 0, -1⟩)] ∧
      run 3 driveAllRun = .next (after (run 3 driveAllRun) driveAllRun) ∧
      (after (run 3 driveAllRun) driveAllRun).cmdIn = [] ∧ (after (run 3 driveAllRun) driveAllRun).busy = .none :=
  ⟨legal_of (by decide) (by decide) (by decide), by decide, by decide, by decide,
    next_after _ (by decide), by decide, by decide⟩

/-- Two ticks exactly 25 ms apart for the one channel, and for the larger of two; and no tick at all. -/
theorem witness_PacedDriveCompletes :
    ((driving 2 [25, 50]).rstIn = [] ∧ (driving 2 [25, 50]).nowIn.length = 2 ∧
      Paced (driving 2 [25, 50]).interval (driving 2 [25, 50]).lastStepTime (driving 2 [25, 50]).nowIn ∧
      (driving 2 [25, 50]).busy = .one .c2 ∧ ((driving 2 [25, 50]).ch.get .c2).stepsLeft.toNat = 2) ∧
    ((drivingAll 1 2 [25, 50]).busy = .all ∧
      Paced (drivingAll 1 2 [25, 50]).interval (drivingAll 1 2 [25, 50]).lastStepTime (drivingAll 1 2 [25, 50]).nowIn ∧
      (∀ c, ((drivingAll 1 2 [25, 50]).ch.get c).stepsLeft.toNat ≤ 2) ∧
      ((drivingAll 1 2 [25, 50]).ch.get .c2).stepsLeft.toNat = 2) ∧
    ((driving 0 []).nowIn.length = 0 ∧ ((driving 0 []).ch.get .c2).stepsLeft.toNat = 0) :=
  ⟨⟨by decide, by decide, ⟨by decide, by decide, trivial⟩, by decide, by decide⟩,
    ⟨by decide, ⟨by decide, by decide, trivial⟩, fun c => by cases c <;> decide, by decide⟩, by decide⟩

theorem witness_StoppedClockBlocksForever :
    ((driving 2 [0, 0]).rstIn = [] ∧ (driving 2 [0, 0]).interval ≠ 0 ∧
      (driving 2 [0, 0]).nowIn = List.replicate 2 (driving 2 [0, 0]).lastStepTime ∧
      (driving 2 [0, 0]).busy = .one .c2 ∧ HasSteps (driving 2 [0, 0]) .c2) ∧
    ((drivingAll 1 2 [0]).rstIn = [] ∧ (drivingAll 1 2 [0]).interval ≠ 0 ∧
      (drivingAll 1 2 [0]).nowIn = List.replicate 1 (drivingAll 1 2 [0]).lastStepTime ∧
      (drivingAll 1 2 [0]).busy = .all ∧ HasSteps (drivingAll 1 2 [0]) .c1) := by unfold HasSteps; decide

theorem witness_TickResult_closed :
    State.reset.asyncState ≠ .running ∧ (running 2 [24]).asyncState = .running ∧
      mayStep (sampleNow (running 2 [24])).1 (running 2 [24]).lastStepTime (running 2 [24]).interval = false := by decide

/-- The gate open at exactly the interval: with a channel still active afterwards, and with none. -/
theorem witness_TickResult_open :
    (running 2 [25]).asyncState = .running ∧
      mayStep (sampleNow (running 2 [25])).1 (running 2 [25]).lastStepTime (running 2 [25]).interval = true ∧
      exec .tick (running 2 [25]) = .next (done .tick (running 2 [25])) ∧ HasSteps (done .tick (running 2 [25])) .c1 ∧
      exec .tick (running 1 [25]) = .next (done .tick (running 1 [25])) ∧
      ∀ c, ¬ HasSteps (done .tick (running 1 [25])) c :=
  ⟨by decide, by decide, next_after _ (by decide), by unfold HasSteps; decide, next_after _ (by decide),
    fun c => by cases c <;> (unfold HasSteps; decide)⟩

/-- A state in each of the three AsyncStates. -/
theorem witness_PauseResult_ResumeResult :
    (running 1 []).asyncState = .running ∧ ({ running 1 [] with asyncState := .paused } : State).asyncState = .paused ∧
      State.reset.asyncState = .stopped := by decide

/-- Every kind of command that the clauses speak of answers a next state. -/
theorem witness_AsyncStateMachine (i : Instr)
    (h : i ∈ [.start noLanes, .pause, .resume, .stop, .tick, .setSpeed 50, .driveOne 3 1, .torque false]) :
    exec i (running 1 [25]) = .next (done i (running 1 [25])) := by
  simp only [List.mem_cons, List.not_mem_nil, or_false] at h
  rcases h with rfl | rfl | rfl | rfl | rfl | rfl | rfl | rfl <;> exact next_after _ (by decide)

theorem witness_AsyncStateMachine_tick :
    gateOpen (sampleNow (running 1 [25])).1 (running 1 [25]) = true ∧
      ∀ c, ((running 1 [25]).ch.get c).stepsLeft.toNat ≤ 1 := ⟨by decide, fun c => by cases c <;> decide⟩

theorem witness_AsyncStateMachine_step :
    (RstLow (driving 1 [30]) ∧ step (driving 1 [30]) = .next (stepped (driving 1 [30])) ∧ (driving 1 [30]).busy ≠ .none) ∧
    (RstLow (presented [0] State.reset) ∧
      step (presented [0] State.reset) = .next (stepped (presented [0] State.reset)) ∧
      ∀ w ∈ (presented [0] State.reset).cmdIn.head?, IllegalWord w) := by
  refine ⟨⟨by unfold RstLow; decide, next_after _ (by decide), by decide⟩,
    by unfold RstLow; decide, next_after _ (by decide), fun w hw => ?_⟩
  cases hw; unfold IllegalWord; decide

/-- START +1, then PAUSE, RESUME and the TICK that completes the drive. -/
def asyncRun : State :=
  presented [encode (.start ⟨1, 0, 0, 0, 0, 0⟩), encode .pause, encode .resume, encode .tick] (place direct [] [0])

theorem witness_AsyncDriveIssuesExactPulses :
    Legal asyncRun ∧ asyncRun.busy = .none ∧ asyncRun.rstIn = [] ∧
      asyncRun.cmdIn = encode (.start ⟨1, 0, 0, 0, 0, 0⟩) :: [encode .pause, encode .resume, encode .tick] ∧
      (∀ w ∈ [encode .pause, encode .resume, encode .tick], ∀ i, decode w = .command i → intervenes i = true) ∧
      run (3 + 1) asyncRun = .next (after (run 4 asyncRun) asyncRun) ∧
      (after (run 4 asyncRun) asyncRun).asyncState = .stopped := by
  refine ⟨legal_of (by decide) (by decide) (by decide), by decide, by decide, by decide, fun w hw i hd => ?_,
    next_after _ (by decide), by decide⟩
  simp only [List.mem_cons, List.not_mem_nil, or_false] at hw
  have h1 : decode (encode .pause) = .command .pause := by decide
  have h2 : decode (encode .resume) = .command .resume := by decide
  have h3 : decode (encode .tick) = .command .tick := by decide
  rcases hw with rfl | rfl | rfl
  · rw [h1] at hd; cases hd; rfl
  · rw [h2] at hd; cases hd; rfl
  · rw [h3] at hd; cases hd; rfl

theorem witness_TorqueResult : direct.variant = .standard ∧ prototype.variant = .prototype := by decide

/-- A TICK that changes channel records, the AsyncState, the time of the last tick and the bus. -/
theorem witness_CommandsWriteOnlyTheirState :
    exec .tick (running 1 [25]) = .next (done .tick (running 1 [25])) ∧
      (done .tick (running 1 [25])).ch.v1.offset ≠ (running 1 [25]).ch.v1.offset ∧
      (done .tick (running 1 [25])).ch.v1.phaseIndex ≠ (running 1 [25]).ch.v1.phaseIndex ∧
      (done .tick (running 1 [25])).asyncState ≠ (running 1 [25]).asyncState ∧
      (done .tick (running 1 [25])).lastStepTime ≠ (running 1 [25]).lastStepTime ∧
      (done .tick (running 1 [25])).trace ≠ (running 1 [25]).trace :=
  ⟨next_after _ (by decide), by decide⟩

/-- A SET_SPEED that changes the interval, and a DRIVE_ONE that changes a count, a direction and `busy`. -/
theorem witness_CommandsWriteOnlyTheirState_others :
    exec (.setSpeed 50) State.reset = .next (done (.setSpeed 50) State.reset) ∧
      (done (.setSpeed 50) State.reset).interval ≠ State.reset.interval ∧
      exec (.driveOne 3 (-1)) State.reset = .next (done (.driveOne 3 (-1)) State.reset) ∧
      (done (.driveOne 3 (-1)) State.reset).ch.v3.stepsLeft ≠ State.reset.ch.v3.stepsLeft ∧
      (done (.driveOne 3 (-1)) State.reset).ch.v3.direction ≠ State.reset.ch.v3.direction ∧
      (done (.driveOne 3 (-1)) State.reset).busy ≠ State.reset.busy :=
  ⟨next_after _ (by decide), by decide, next_after _ (by decide), by decide⟩

theorem witness_EngineLeavesTheRest :
    (driving 1 [30]).busy ≠ .none ∧ RstLow (driving 1 [30]) ∧ (driving 1 [30]).busy = .one .c2 ∧ Chan.c1 ≠ Chan.c2 := by
  unfold RstLow; decide

theorem witness_ClockSampledOnlyByPolls :
    (running 1 [25]).nowIn = 25 :: [] ∧
      (exec .tick State.reset = .next (done .tick State.reset) ∧ ¬ (Instr.tick = .tick ∧ State.reset.asyncState = .running)) ∧
      (exec .tick (running 1 [25]) = .next (done .tick (running 1 [25])) ∧ (running 1 [25]).asyncState = .running) ∧
      (RstLow State.reset ∧ State.reset.busy = .none ∧ step State.reset = .next (stepped State.reset) ∧
        ∀ w ∈ State.reset.cmdIn.head?, IllegalWord w) :=
  ⟨by decide, ⟨next_after _ (by decide), by decide⟩, ⟨next_after _ (by decide), by decide⟩,
    by unfold RstLow; decide, by decide, next_after _ (by decide), fun w hw => by cases hw⟩

/-- A poll of either blocking command, a completion of either, a reset that abandons one, and a clock not listed. -/
theorem witness_ClockSampledOnlyByPolls_engine :
    (RstLow (driving 1 [25]) ∧ (driving 1 [25]).busy = .one .c2 ∧ HasSteps (driving 1 [25]) .c2 ∧
      step (driving 1 [25]) = .next (stepped (driving 1 [25]))) ∧
    (RstLow (drivingAll 1 0 [25]) ∧ (drivingAll 1 0 [25]).busy = .all ∧ HasSteps (drivingAll 1 0 [25]) .c1 ∧
      step (drivingAll 1 0 [25]) = .next (stepped (drivingAll 1 0 [25]))) ∧
    (RstLow (driving 0 [25]) ∧ (driving 0 [25]).busy = .one .c2 ∧ ¬ HasSteps (driving 0 [25]) .c2 ∧
      step (driving 0 [25]) = .next (stepped (driving 0 [25]))) ∧
    (RstLow (drivingAll 0 0 [25]) ∧ (drivingAll 0 0 [25]).busy = .all ∧ (∀ c, ¬ HasSteps (drivingAll 0 0 [25]) c) ∧
      step (drivingAll 0 0 [25]) = .next (stepped (drivingAll 0 0 [25]))) ∧
    (¬ RstLow { driving 1 [25] with rstIn := [true] } ∧
      step { driving 1 [25] with rstIn := [true] } = .next (stepped { driving 1 [25] with rstIn := [true] })) ∧
    State.reset.nowIn = [] :=
  ⟨⟨by unfold RstLow; decide, by decide, by unfold HasSteps; decide, next_after _ (by decide)⟩,
    ⟨by unfold RstLow; decide, by decide, by unfold HasSteps; decide, next_after _ (by decide)⟩,
    ⟨by unfold RstLow; decide, by decide, by unfold HasSteps; decide, next_after _ (by decide)⟩,
    ⟨by unfold RstLow; decide, by decide, fun c => by cases c <;> (unfold HasSteps; decide), next_after _ (by decide)⟩,
    ⟨by unfold RstLow; decide, next_after _ (by decide)⟩, by decide⟩

theorem witness_OnlySpeedZeroStops :
    step (presented [0x10000000000000000000000000] State.reset) = .fault .speedZero ∧
      (Instr.setSpeed 1).wellFormed = true := ⟨rfl, by decide⟩

theorem witness_StepsMoveOffsetAndPhase :
    (RstLow (driving 1 [30]) ∧ step (driving 1 [30]) = .next (stepped (driving 1 [30])) ∧ (driving 1 [30]).busy ≠ .none ∧
      ((driving 1 [30]).ch.get .c2).phaseIndex.toNat < waveLen (driving 1 [30]).cfg) ∧
    (RstLow (presented [encode .tick] (running 1 [30])) ∧
      step (presented [encode .tick] (running 1 [30])) = .next (stepped (presented [encode .tick] (running 1 [30]))) ∧
      ∀ w ∈ (presented [encode .tick] (running 1 [30])).cmdIn.head?,
        ∀ i, decode w = .command i → keepsRequest i = true) := by
  refine ⟨⟨by unfold RstLow; decide, next_after _ (by decide), by decide, by decide⟩,
    by unfold RstLow; decide, next_after _ (by decide), fun w hw i hd => ?_⟩
  cases hw
  have h : decode (encode .tick) = .command .tick := by decide
  rw [h] at hd; cases hd; rfl

/-- A DRIVE_ONE in progress with interval 0 and a clock that still shows the time of the last tick. -/
def unpaced : State := { driving 1 [0] with interval := 0 }

/-- A poll that pulses at a sample equal to the last one, which interval 0 allows, and one exactly at the interval. -/
theorem witness_TicksSpacedByInterval :
    (RstLow (driving 1 [25]) ∧ step (driving 1 [25]) = .next (stepped (driving 1 [25])) ∧
      (stepped (driving 1 [25])).lastStepTime ≠ (driving 1 [25]).lastStepTime) ∧
    (RstLow unpaced ∧ step unpaced = .next (stepped unpaced) ∧
      (stepped unpaced).ch.v2.phaseIndex ≠ unpaced.ch.v2.phaseIndex ∧
      (stepped unpaced).ch.v2.stepsLeft.toNat + 1 = unpaced.ch.v2.stepsLeft.toNat ∧ unpaced.busy ≠ .none) :=
  ⟨⟨by unfold RstLow; decide, next_after _ (by decide), by decide⟩,
    by unfold RstLow; decide, next_after _ (by decide), by decide⟩

theorem witness_CompletionIdlesBus :
    (RstLow (driving 0 []) ∧ (driving 0 []).busy ≠ .none ∧ step (driving 0 []) = .next (stepped (driving 0 [])) ∧
      (stepped (driving 0 [])).busy = .none) ∧
    (exec .tick (running 1 [25]) = .next (done .tick (running 1 [25])) ∧ (running 1 [25]).asyncState = .running ∧
      (done .tick (running 1 [25])).asyncState = .stopped) ∧
    exec (.torque true) State.reset = .next (done (.torque true) State.reset) :=
  ⟨⟨by unfold RstLow; decide, by decide, next_after _ (by decide), by decide⟩,
    ⟨next_after _ (by decide), by decide, by decide⟩, next_after _ (by decide)⟩

theorem witness_ResetMeetsInvariants : prototype.valid = true ∧ reversed.valid = true := by decide

theorem witness_StepKeepsLegal :
    Legal (driving 32768 [30]) ∧ step (driving 32768 [30]) = .next (stepped (driving 32768 [30])) :=
  ⟨legal_of (by decide) (by decide) (by decide), next_after _ (by decide)⟩

theorem witness_StepKeepsBusDiscipline :
    Legal (driving 1 [30]) ∧ BusDisciplined (driving 1 [30]) ∧ step (driving 1 [30]) = .next (stepped (driving 1 [30])) :=
  ⟨legal_of (by decide) (by decide) (by decide), ⟨.empty, by decide⟩, next_after _ (by decide)⟩

theorem witness_StepKeepsBusAtRest :
    BusAtRest (driving 1 [30]) ∧ step (driving 1 [30]) = .next (stepped (driving 1 [30])) :=
  ⟨.inl (by decide), next_after _ (by decide)⟩

theorem witness_OffsetsDecideNothing :
    (step (driving 1 [30]) = .next (stepped (driving 1 [30])) ∧ (driving 1 [30]).busy ≠ .none) ∧
    (step (presented [encode .tick] (running 1 [30])) = .next (stepped (presented [encode .tick] (running 1 [30]))) ∧
      ∀ w ∈ (presented [encode .tick] (running 1 [30])).cmdIn.head?, decode w ≠ .command .getOffsets) := by
  refine ⟨⟨next_after _ (by decide), by decide⟩, next_after _ (by decide), fun w hw => ?_⟩
  cases hw; decide

end Sys2Proof.Tests
end

section
/-!
The obligations about the scope of the model (00_scope.md).
-/

namespace Sys2Proof.Proofs.Scope

open Sys2Proof.Machine

/-- Settles O7: it is the equation of a step in the waiting situation, `step_of_waiting` (R13, R62, log 18). -/
theorem stepWaitsForCommand : Obligations.StepWaitsForCommand := by
  intro s hbusy hrst hcmd
  exact step_of_waiting hrst hbusy hcmd

end Sys2Proof.Proofs.Scope
end

section
/-!
The obligations about the state (10_state.md), part 1: the addresses, the invariants every step keeps, each by the
closure principle `KeptByAll`, and what reset leaves.
-/

namespace Sys2Proof.Proofs.StateInvariants

open Sys2Proof.Machine

/-! ### Addresses (R21, R105) -/

/-- An address lies inside the 3-bit field at `ADDR_SHIFT`. -/
theorem addrOf_inside_field (k : Config) (c : Chan) : addrOf k c &&& ((7 : Byte) <<< k.addrShift) = addrOf k c := by
  have hfield : ∀ f : BitVec 3, f.zeroExtend 8 &&& (7 : Byte) = f.zeroExtend 8 := by decide
  rw [addrOf, ← BitVec.shiftLeft_and_distrib, hfield]

theorem addrOf_inside_mask {k : Config} (h : k.valid = true) (c : Chan) : addrOf k c &&& ~~~k.addrMask = 0 := by
  obtain ⟨-, -, -, -, -, -, -, hmask, -⟩ := Config.valid_iff.mp h
  rw [← addrOf_inside_field, BitVec.and_assoc, hmask]
  exact BitVec.and_zero

theorem chanNumber_injective : Function.Injective chanNumber := by
  intro c d h
  have := congrArg chanOfNumber h
  simpa using this

theorem addrFieldOf_injective (scheme : AddrScheme) : Function.Injective (addrFieldOf scheme) := by
  have hrev : Function.LeftInverse reverse3 reverse3 := by unfold Function.LeftInverse; decide
  cases scheme with
  | direct => exact chanNumber_injective
  | reversed => exact hrev.injective.comp chanNumber_injective

/-- A 3-bit field shifted inside a byte can be read back. -/
theorem shifted_field_injective {n : Nat} (hn : n ≤ 5) :
    Function.Injective fun f : BitVec 3 => f.zeroExtend 8 <<< n := by
  have hback : ∀ m < 6, ∀ f : BitVec 3, ((f.zeroExtend 8 <<< m) >>> m).setWidth 3 = f := by decide
  exact Function.LeftInverse.injective (g := fun b : Byte => (b >>> n).setWidth 3) (hback n (by omega))

theorem addrOf_injective {k : Config} (h : k.valid = true) : Function.Injective (addrOf k) := by
  obtain ⟨-, -, -, -, -, -, hshift, -⟩ := Config.valid_iff.mp h
  exact (shifted_field_injective hshift).comp (addrFieldOf_injective k.addrScheme)

/-- Settles O15: an address lies in the 3-bit field at `ADDR_SHIFT`, which the mask holds, and both the field of a
channel and its place in the byte can be read back. -/
theorem addressesDistinct : Obligations.AddressesDistinct := by
  intro k c d hk
  exact ⟨addrOf_inside_mask hk c, fun h => addrOf_injective hk h⟩

/-! ### Legal states (R45) -/

theorem asyncStateOut_ne_three (s : State) : asyncStateOut s ≠ 3 := by
  unfold asyncStateOut
  cases s.asyncState <;> decide

theorem address_of_channelLegal {k : Config} {c : Chan} {x : Channel} (h : ChannelLegal k c x) :
    x.address = addrOf k c := by
  obtain ⟨-, -, haddr⟩ := h
  exact haddr

/-- `s` is a state under the parameters `k`, and its six records are legal (R45). -/
def LegalOn (k : Config) (s : State) : Prop := s.cfg = k ∧ ∀ c, ChannelLegal k c (s.ch.get c)

theorem legal_iff (s : State) : Legal s ↔ s.cfg.valid = true ∧ LegalOn s.cfg s :=
  ⟨fun ⟨hk, hch, _⟩ => ⟨hk, rfl, hch⟩, fun ⟨hk, _, hch⟩ => ⟨hk, hch, asyncStateOut_ne_three s⟩⟩

theorem waveLen_pos (k : Config) : 0 < waveLen k := by unfold waveLen; split <;> decide

theorem legalOn_resetOf (k : Config) : LegalOn k (State.resetOf k) := by
  refine ⟨rfl, fun c => ?_⟩
  have hget : (State.resetOf k).ch.get c = Channel.resetOf k c := Six.get_of _ c
  rw [hget]
  exact ⟨Nat.zero_le _, waveLen_pos k, rfl⟩

theorem channelLegal_loadChannel {k : Config} {c : Chan} {x : Channel} (d : Delta) (h : ChannelLegal k c x) :
    ChannelLegal k c (loadChannel d x) := by
  obtain ⟨-, hphase, haddr⟩ := h
  refine ⟨?_, hphase, haddr⟩
  have hlo := BitVec.le_toInt d
  have hhi := BitVec.toInt_lt (x := d)
  norm_num at hlo hhi
  rw [loadChannel_stepsLeft, magnitude_toNat]
  omega

theorem channelLegal_pulsedChannel {k : Config} {c : Chan} {x : Channel} (hx : 0 < x.stepsLeft.toNat)
    (h : ChannelLegal k c x) : ChannelLegal k c (pulsedChannel k x) := by
  obtain ⟨hsteps, -, haddr⟩ := h
  obtain ⟨hfall, -⟩ := pulsedChannel_stepped k x hx
  refine ⟨by omega, ?_, haddr⟩
  rw [pulsedChannel_phaseIndex, nextIndex_toNat]
  exact Nat.mod_lt _ (waveLen_pos k)

/-- Writing a legal record of its channel keeps the records legal. -/
theorem LegalOn.channelLegal_set {k : Config} {s : State} (h : LegalOn k s) {c : Chan} {x : Channel} (hx : ChannelLegal k c x)
    (d : Chan) : ChannelLegal k d ((s.ch.set c x).get d) := by
  rw [Six.get_set]
  split
  · next hd => exact hd ▸ hx
  · exact h.2 d

/-- TORQUE leaves the parameters and the channel records. -/
theorem torque_cfg_ch (e : Bool) (s : State) :
    (idle (torqueWrites e s)).cfg = s.cfg ∧ (idle (torqueWrites e s)).ch = s.ch := by
  obtain ⟨b, tr, h⟩ := torqueWrites_frame e s
  rw [h]
  exact ⟨rfl, rfl⟩

theorem legalOn_kept (k : Config) : KeptByAll (LegalOn k) where
  inputs _ _ _ _ _ hs := hs
  answered _ _ _ hs := hs
  intervalSet _ _ hs := hs
  asyncSet _ _ hs := hs
  busySet _ _ hs := hs
  timeSet _ _ hs := hs
  idled _ hs := hs
  torqued s e hs := by
    obtain ⟨hcfg, hch⟩ := torque_cfg_ch e s
    unfold LegalOn
    rwa [hcfg, hch]
  pulsed s now c hc hs := by
    obtain ⟨rfl, hch⟩ := hs
    refine ⟨pulse_cfg s now c, fun d => ?_⟩
    rw [pulse_ch]
    exact LegalOn.channelLegal_set ⟨rfl, hch⟩ (channelLegal_pulsedChannel hc (hch c)) d
  loaded s c d hs := ⟨hs.1, hs.channelLegal_set (channelLegal_loadChannel d (hs.2 c))⟩
  cleared s c hs := ⟨hs.1, hs.channelLegal_set (hs.2 c)⟩
  hardReset s hs := hs.1 ▸ legalOn_resetOf s.cfg

/-- Settles O52: the named operations keep the parameters and legal records (`legalOn_kept`), so a step does; the
addresses are those of the parameters before and after. -/
theorem stepKeepsLegal : Obligations.StepKeepsLegal := by
  intro s t hs hstep
  obtain ⟨hk, hon⟩ := (legal_iff s).mp hs
  obtain ⟨hcfg, hch⟩ := (legalOn_kept s.cfg).step hon hstep
  refine ⟨(legal_iff t).mpr ?_, hcfg, fun c => ?_⟩
  · rw [hcfg]
    exact ⟨hk, hcfg, hch⟩
  · rw [address_of_channelLegal (hch c), address_of_channelLegal (hon.2 c)]

/-! ### The discipline of the bus (R34, R102, R103) -/

theorem busDisciplined_emit {s : State} (tick : Option Time) {b : Byte} (hb : CommandByte s.cfg b)
    (hs : BusDisciplined s) : BusDisciplined (emit tick b s) := by
  refine ⟨?_, by simp [traceBytes]⟩
  simpa [traceBytes] using WellStrobed.pair _ b hs.1 hb

theorem busDisciplined_idle {s : State} (hs : BusDisciplined s) : BusDisciplined (idle s) := by
  refine ⟨?_, by simp [traceBytes]⟩
  simpa [traceBytes] using WellStrobed.idle _ hs.1

/-- The bus is disciplined while nothing has been written since reset. -/
theorem busDisciplined_of_no_trace {s : State} (htrace : s.trace = []) (hbus : s.busOut = s.cfg.idleByte) :
    BusDisciplined s := by
  unfold BusDisciplined
  rw [htrace, hbus]
  exact ⟨.empty, rfl⟩

/-- What TORQUE writes on STANDARD lies inside the coil field. -/
theorem torquePattern_inside {k : Config} (hk : k.valid = true) (hv : k.variant = .standard) (e : Bool) (x : Channel) :
    torquePattern k e x &&& ~~~k.coilMask = 0 := by
  obtain ⟨-, -, -, -, -, -, -, -, -, -, -, -, hoff, -⟩ := Config.valid_iff.mp hk
  have hwave : wave k x.phaseIndex = patternOf k x.phaseIndex .cw := by simp [patternOf, hv]
  unfold torquePattern
  split
  · rw [hwave]; exact patternOf_inside hk _ _
  · exact hoff

/-- The discipline of the bus under the parameters `k`, with the legal records that make every byte a command byte. -/
def DisciplinedOn (k : Config) (s : State) : Prop := LegalOn k s ∧ BusDisciplined s

/-- A strobe pair of a pattern with the address of a channel's record keeps the discipline. -/
theorem disciplinedOn_emit {k : Config} {s : State} (tick : Option Time) (c : Chan) {p : Byte}
    (hp : p &&& ~~~k.coilMask = 0) (hs : DisciplinedOn k s) :
    DisciplinedOn k (emit tick (p ||| (s.ch.get c).address) s) := by
  obtain ⟨⟨rfl, hch⟩, hbus⟩ := hs
  refine ⟨⟨emit_cfg .., fun d => ?_⟩, ?_⟩
  · rw [emit_ch]
    exact hch d
  · exact busDisciplined_emit tick ⟨p, c, hp, by rw [address_of_channelLegal (hch c)]⟩ hbus

theorem disciplinedOn_kept {k : Config} (hk : k.valid = true) : KeptByAll (DisciplinedOn k) where
  inputs _ _ _ _ _ hs := hs
  answered _ _ _ hs := hs
  intervalSet _ _ hs := hs
  asyncSet _ _ hs := hs
  busySet _ _ hs := hs
  timeSet _ _ hs := hs
  idled _ hs := ⟨hs.1, busDisciplined_idle hs.2⟩
  torqued s e hs := by
    refine torque_keeps (fun s e c hv hs => ?_) (fun s hs => ⟨hs.1, busDisciplined_idle hs.2⟩) e hs
    have hcfg := hs.1.1
    subst hcfg
    exact disciplinedOn_emit none c (torquePattern_inside hk hv e _) hs
  pulsed s now c hc hs := by
    refine ⟨(legalOn_kept k).pulsed s now c hc hs.1, ?_⟩
    have hcfg := hs.1.1
    subst hcfg
    exact (disciplinedOn_emit (some now) c (patternOf_inside hk _ _) hs).2
  loaded s c d hs := ⟨(legalOn_kept k).loaded s c d hs.1, hs.2⟩
  cleared s c hs := ⟨(legalOn_kept k).cleared s c hs.1, hs.2⟩
  hardReset s hs := ⟨(legalOn_kept k).hardReset s hs.1, busDisciplined_of_no_trace rfl rfl⟩

/-- Settles O53: each named operation writes strobe pairs of command bytes or an idle byte, because patterns lie inside
the coil field and a legal record has its channel's address (`disciplinedOn_kept`). -/
theorem stepKeepsBusDiscipline : Obligations.StepKeepsBusDiscipline := by
  intro s t hs hbus hstep
  obtain ⟨hk, hon⟩ := (legal_iff s).mp hs
  exact ((disciplinedOn_kept hk).step ⟨hon, hbus⟩ hstep).2

/-! ### The bus at rest (R48) -/

/-- A write of a record that keeps its channel's phase index and address leaves the bus at rest. -/
theorem busAtRest_setChannel {s : State} {c : Chan} {x : Channel} (hphase : x.phaseIndex = (s.ch.get c).phaseIndex)
    (haddr : x.address = (s.ch.get c).address) (hs : BusAtRest s) : BusAtRest (setChannel c x s) := by
  refine hs.imp id fun ⟨d, dir, hd⟩ => ⟨d, dir, ?_⟩
  rw [setChannel_busOut, setChannel_ch, setChannel_cfg, Six.get_set, hd]
  split
  · next h => rw [hphase, haddr, h]
  · rfl

theorem busAtRest_kept : KeptByAll BusAtRest where
  inputs _ _ _ _ _ hs := hs
  answered _ _ _ hs := hs
  intervalSet _ _ hs := hs
  asyncSet _ _ hs := hs
  busySet _ _ hs := hs
  timeSet _ _ hs := hs
  idled _ _ := .inl rfl
  torqued _ _ _ := .inl rfl
  pulsed s now c _ _ := .inr ⟨c, (s.ch.get c).direction, by simp [pulseByte, nextPhase]⟩
  loaded _ _ _ hs := busAtRest_setChannel rfl rfl hs
  cleared _ _ hs := busAtRest_setChannel rfl rfl hs
  hardReset _ _ := .inl rfl

/-- Settles O54: a pulse leaves its own command byte at the index it moved to, an idle write the idle byte, and a load
or the zeroing of an offset moves no phase index (`busAtRest_kept`). -/
theorem stepKeepsBusAtRest : Obligations.StepKeepsBusAtRest := fun _ _ hs hstep => busAtRest_kept.step hs hstep

/-! ### Reset (R51) -/

/-- Settles O11: the fields of `State.resetOf`, read off. -/
theorem resetStateIsTable : Obligations.ResetStateIsTable :=
  ⟨rfl, rfl, rfl, fun k => ⟨rfl, Six.get_of (Channel.resetOf k), rfl, rfl, rfl, rfl, rfl, rfl, rfl, rfl⟩⟩

theorem legal_resetOf {k : Config} (hk : k.valid = true) : Legal (State.resetOf k) :=
  (legal_iff _).mpr ⟨hk, legalOn_resetOf k⟩

/-- Settles O51: a record after reset is legal, and the bus shows the idle byte with nothing written. -/
theorem resetMeetsInvariants : Obligations.ResetMeetsInvariants :=
  ⟨legal_resetOf (by decide), fun _ hk => ⟨legal_resetOf hk, busDisciplined_of_no_trace rfl rfl, .inl rfl⟩⟩

end Sys2Proof.Proofs.StateInvariants
end

section
/-!
The obligations about the state (10_state.md), part 2: the laws of offsets and phase indices, over a number of
pulses and over a step of the machine.
-/

namespace Sys2Proof.Proofs.StateInvariants

open Sys2Proof.Machine

/-! ### The phase index and the offset after N pulses (R47, R139) -/

theorem iterate_pulsedChannel_direction (k : Config) (x : Channel) (n : Nat) :
    (((pulsedChannel k)^[n]) x).direction = x.direction := by
  induction n with
  | zero => rfl
  | succ n ih => rw [Function.iterate_succ_apply', pulsedChannel_direction, ih]

/-- The offset after N pulses is N turns of the one rule of R139. -/
theorem iterate_pulsedChannel_offset (k : Config) (x : Channel) (n : Nat) :
    (((pulsedChannel k)^[n]) x).offset = (offsetAfter x.direction)^[n] x.offset := by
  induction n with
  | zero => rfl
  | succ n ih =>
    rw [Function.iterate_succ_apply', Function.iterate_succ_apply', pulsedChannel_offset, ih,
      iterate_pulsedChannel_direction]

/-- The phase index after N pulses: N times the move of one pulse, modulo the waveform length. -/
theorem iterate_pulsedChannel_phase (k : Config) (x : Channel) (h : x.phaseIndex.toNat < waveLen k) (n : Nat) :
    (((pulsedChannel k)^[n]) x).phaseIndex.toNat =
      (x.phaseIndex.toNat + n * if x.direction = .cw then 1 else waveLen k - 1) % waveLen k := by
  induction n with
  | zero => simp [Nat.mod_eq_of_lt h]
  | succ n ih =>
    rw [Function.iterate_succ_apply', pulsedChannel_phaseIndex, nextIndex_toNat, ih,
      iterate_pulsedChannel_direction, Nat.mod_add_mod, Nat.succ_mul, Nat.add_assoc]

/-- Settles O23: the closed form of the phase index at waveform length 4 and index 0. -/
theorem phaseAfterPulses : Obligations.PhaseAfterPulses := by
  intro k x n hv hx
  have hlen : waveLen k = 4 := by simp [waveLen, hv]
  have hphase := iterate_pulsedChannel_phase k x (by simp [hx, hlen]) n
  have hzero : x.phaseIndex.toNat = 0 := by simp [hx]
  rw [hzero, hlen] at hphase
  constructor
  · intro hd
    simpa [hd] using hphase
  · intro hd
    rw [if_neg (by simp [hd])] at hphase
    omega

theorem offsetAfter_ccw_cw : Function.LeftInverse (offsetAfter .ccw) (offsetAfter .cw) :=
  fun o => BitVec.add_sub_cancel o 1

/-- Settles O24: one step back undoes one step there on the offset, and the closed form of the phase index goes once
round for each pulse there and back. -/
theorem roundTripLaw : Obligations.RoundTripLaw := by
  intro k x n hphase hdir there back
  have hpos := waveLen_pos k
  have hthere : there.phaseIndex.toNat = (x.phaseIndex.toNat + n) % waveLen k := by
    simpa [hdir] using iterate_pulsedChannel_phase k x hphase n
  constructor
  · rw [iterate_pulsedChannel_offset, iterate_pulsedChannel_offset, hdir]
    exact offsetAfter_ccw_cw.iterate n x.offset
  · refine BitVec.eq_of_toNat_eq ?_
    have hback := iterate_pulsedChannel_phase k { there with direction := .ccw } (hthere ▸ Nat.mod_lt _ hpos) n
    have hround : x.phaseIndex.toNat + n + n * (waveLen k - 1) = x.phaseIndex.toNat + waveLen k * n := by
      rw [Nat.add_assoc, Nat.add_comm n, ← Nat.mul_succ, Nat.succ_eq_add_one, Nat.sub_add_cancel hpos, Nat.mul_comm]
    calc back.phaseIndex.toNat
        = (there.phaseIndex.toNat + n * (waveLen k - 1)) % waveLen k := hback
      _ = (x.phaseIndex.toNat + waveLen k * n) % waveLen k := by rw [hthere, Nat.mod_add_mod, hround]
      _ = x.phaseIndex.toNat := by rw [Nat.add_mul_mod_self_left, Nat.mod_eq_of_lt hphase]

/-! ### What the remaining steps lead to (R24, R46, R47) -/

theorem exec_setSpeed_next {rpm : Rpm} {s t : State} (he : exec (.setSpeed rpm) s = .next t) :
    t = respond true 0 (setInterval (intervalOf s.cfg rpm) s) := by
  simp only [exec, execSetSpeed] at he
  split at he <;> cases he
  rfl

/-- A command other than TICK that neither loads nor zeroes the offsets leaves the channel records. -/
theorem exec_ch_of_request {i : Instr} {s t : State} (hi : keepsRequest i = true) (htick : i ≠ .tick)
    (he : exec i s = .next t) : t.ch = s.ch := by
  cases i with
  | setSpeed rpm => rw [exec_setSpeed_next he]; rfl
  | torque e => cases he; exact (torque_cfg_ch e s).2
  | tick => exact absurd rfl htick
  | getOffsets | pause | resume | stop => cases he; rfl
  | resetOffsets | driveOne | driveAll | start => cases hi

/-- A step that accepts no load and no RESET_OFFSETS moves channel records by pulses only. -/
theorem step_moved {s t : State} (hr : RstLow s)
    (hq : s.busy ≠ .none ∨ (∀ w ∈ s.cmdIn.head?, ∀ i, decode w = .command i → keepsRequest i = true))
    (hstep : step s = .next t) (c : Chan) : Moved s.cfg (s.ch.get c) (t.ch.get c) := by
  by_cases hb : s.busy = .none
  · rcases hc : s.cmdIn with _ | ⟨w, rest⟩
    · rw [step_of_waiting hr hb hc] at hstep
      cases hstep; exact .inl rfl
    · rw [step_of_word hr hb hc] at hstep
      rcases hd : decode w with i | why
      · rw [accept_of_command _ hd] at hstep
        have hi : keepsRequest i = true := hq.resolve_left (fun n => n hb) w (by simp [hc]) i hd
        by_cases htick : i = .tick
        · subst htick
          exact tick_moved hstep c
        · rw [exec_ch_of_request hi htick hstep]
          exact .inl rfl
      · rw [accept_of_illegal _ hd] at hstep
        cases hstep; exact .inl rfl
  · rw [step_of_busy hr hb] at hstep
    cases hstep; exact engine_moved _ c

theorem offsetAtEnd_pulsedChannel {k : Config} {x : Channel} (hx : 0 < x.stepsLeft.toNat) :
    offsetAtEnd (pulsedChannel k x) = offsetAtEnd x := by
  unfold offsetAtEnd
  rw [pulsedChannel_direction, pulsedChannel_offset, pulsedChannel_stepsLeft]
  cases x.direction <;> simp only [offsetAfter] <;> bv_omega

theorem phaseAtEnd_pulsedChannel {k : Config} {x : Channel} (hx : 0 < x.stepsLeft.toNat) :
    phaseAtEnd k (pulsedChannel k x) = phaseAtEnd k x := by
  obtain ⟨hfall, -, hphase, hdir, -⟩ := pulsedChannel_stepped k x hx
  have hpos := waveLen_pos k
  have hleft : ((pulsedChannel k x).stepsLeft.toNat : Int) = x.stepsLeft.toNat - 1 := by omega
  unfold phaseAtEnd
  rw [hdir, hphase, hleft]
  cases x.direction with
  | cw =>
    simp only [if_true]
    have hon : ((x.phaseIndex.toNat + 1 : Nat) : Int) + (x.stepsLeft.toNat - 1) =
        x.phaseIndex.toNat + x.stepsLeft.toNat := by omega
    rw [Int.natCast_emod, Int.emod_add_emod, hon]
  | ccw =>
    simp only [reduceCtorEq, if_false]
    have hback : ((x.phaseIndex.toNat + (waveLen k - 1) : Nat) : Int) - (x.stepsLeft.toNat - 1) =
        x.phaseIndex.toNat - x.stepsLeft.toNat + waveLen k := by omega
    rw [Int.natCast_emod, Int.emod_sub_emod, hback, Int.add_emod_right]

/-- Settles O48: such a step moves records by pulses only (`step_moved`), and one pulse takes one step off the count and
adds it to the offset and the phase index. -/
theorem stepsMoveOffsetAndPhase : Obligations.StepsMoveOffsetAndPhase := by
  intro s t hr hstep hq c
  rcases step_moved hr hq hstep c with h | ⟨hpos, h⟩ <;> rw [h]
  · exact ⟨.inl rfl, rfl, fun _ => rfl⟩
  · exact ⟨.inr (pulsedChannel_stepped s.cfg _ hpos).1, offsetAtEnd_pulsedChannel hpos,
      fun _ => phaseAtEnd_pulsedChannel hpos⟩

end Sys2Proof.Proofs.StateInvariants
end

section
/-!
The obligations about the state (10_state.md), part 3: the offsets decide nothing. Each operation commutes with replacing
the offsets, up to the offsets it leaves, and such operations compose.
-/

namespace Sys2Proof.Proofs.StateInvariants

open Sys2Proof.Machine

/-! ### The offsets decide nothing (R24) -/

/-- `f` decides nothing by an offset: with other offsets before, it leaves the same but for the offsets. -/
def OffsetBlind (f : State → State) : Prop := ∀ o s, ∃ o', f (withOffsets o s) = withOffsets o' (f s)

@[simp] theorem withOffsets_get (o : Six Offset) (s : State) (c : Chan) :
    (withOffsets o s).ch.get c = { s.ch.get c with offset := o.get c } := by simp [withOffsets]

theorem OffsetBlind.comp {f g : State → State} (hg : OffsetBlind g) (hf : OffsetBlind f) :
    OffsetBlind fun s => g (f s) := fun o s => by
  obtain ⟨o₁, h₁⟩ := hf o s
  obtain ⟨o₂, h₂⟩ := hg o₁ (f s)
  exact ⟨o₂, (congrArg g h₁).trans h₂⟩

theorem OffsetBlind.ite {p : State → Bool} (hp : ∀ o s, p (withOffsets o s) = p s) {f g : State → State}
    (hf : OffsetBlind f) (hg : OffsetBlind g) : OffsetBlind fun s => if p s then f s else g s := fun o s => by
  simp only [hp]
  cases p s
  · exact hg o s
  · exact hf o s

theorem active_withOffsets (o : Six Offset) (s : State) (c : Chan) : active (withOffsets o s) c = active s c := by
  unfold active
  rw [withOffsets_get]

theorem allDone_withOffsets (o : Six Offset) (s : State) : allDone (withOffsets o s) = allDone s := by
  simp only [allDone, active_withOffsets]

theorem OffsetBlind.ifActive (c : Chan) {f g : State → State} (hf : OffsetBlind f) (hg : OffsetBlind g) :
    OffsetBlind fun s => if active s c then f s else g s :=
  OffsetBlind.ite (p := fun s => active s c) (fun o s => active_withOffsets o s c) hf hg

theorem OffsetBlind.foldl {f : State → Chan → State} (hf : ∀ c, OffsetBlind fun s => f s c) :
    ∀ l : List Chan, OffsetBlind fun s => l.foldl f s
  | [] => fun o _ => ⟨o, rfl⟩
  | c :: l => (OffsetBlind.foldl hf l).comp (hf c)

theorem offsetBlind_id : OffsetBlind fun s => s := fun o _ => ⟨o, rfl⟩
theorem offsetBlind_setAsync (a : AsyncState) : OffsetBlind (setAsync a) := fun o _ => ⟨o, rfl⟩
theorem offsetBlind_setBusy (b : Busy) : OffsetBlind (setBusy b) := fun o _ => ⟨o, rfl⟩
theorem offsetBlind_setLastStepTime (t : Time) : OffsetBlind (setLastStepTime t) := fun o _ => ⟨o, rfl⟩
theorem offsetBlind_idle : OffsetBlind idle := fun o _ => ⟨o, rfl⟩
theorem offsetBlind_complete : OffsetBlind complete := fun o _ => ⟨o, rfl⟩
theorem offsetBlind_respond (ok : Bool) (data : RspData) : OffsetBlind (respond ok data) := fun o _ => ⟨o, rfl⟩

/-- A record written with any offset is that record written, with that offset for its channel. -/
theorem setChannel_withOffsets (o : Six Offset) (s : State) (c : Chan) (x : Channel) (a : Offset) :
    setChannel c { x with offset := a } (withOffsets o s) = withOffsets (o.set c a) (setChannel c x s) := by
  cases c <;> rfl

theorem offsetBlind_load (c : Chan) (d : Delta) : OffsetBlind (load c d) := fun o s => by
  unfold load
  rw [withOffsets_get]
  exact ⟨_, setChannel_withOffsets o s c (loadChannel d (s.ch.get c)) (o.get c)⟩

theorem offsetBlind_loadAll (targets : Lanes) : OffsetBlind (loadAll targets) :=
  OffsetBlind.foldl (fun c => offsetBlind_load c (targets.get c)) scanOrder

theorem offsetBlind_clearOffset (c : Chan) : OffsetBlind fun s => clearOffset s c := fun o s => by
  simp only [clearOffset, withOffsets_get]
  exact ⟨_, setChannel_withOffsets o s c { s.ch.get c with offset := 0 } 0⟩

theorem offsetBlind_pulse (now : Time) (c : Chan) : OffsetBlind (pulse now c) := fun o s => by
  unfold pulse
  rw [withOffsets_get]
  exact ⟨_, setChannel_withOffsets o (emit (some now) (pulseByte s.cfg (s.ch.get c)) s) c
    (pulsedChannel s.cfg (s.ch.get c)) (offsetAfter (s.ch.get c).direction (o.get c))⟩

theorem offsetBlind_tickBody (now : Time) : OffsetBlind (tickBody now) := by
  have hturn : ∀ c, OffsetBlind fun s => pulseIfActive now s c := fun c =>
    OffsetBlind.ifActive c (offsetBlind_pulse now c) offsetBlind_id
  exact (OffsetBlind.foldl hturn scanOrder).comp (offsetBlind_setLastStepTime now)

theorem sampleNow_withOffsets (o : Six Offset) (s : State) :
    sampleNow (withOffsets o s) = ((sampleNow s).1, withOffsets o (sampleNow s).2) := by
  rcases hn : s.nowIn with _ | ⟨now, rest⟩ <;> simp [sampleNow, withOffsets, hn]

/-- A poll decides by the sample, the time of the last tick and the interval. -/
theorem offsetBlind_poll {tick : Time → State → State} (ht : ∀ now, OffsetBlind (tick now)) :
    OffsetBlind (poll tick) := fun o s => by
  have hgate : ∀ now u, gateOpen now (withOffsets o u) = gateOpen now u := fun _ _ => rfl
  simp only [poll, sampleNow_withOffsets, hgate]
  split
  · exact ht _ o _
  · exact ⟨o, rfl⟩

theorem offsetBlind_engine : OffsetBlind engine := fun o s => by
  have hbusy : (withOffsets o s).busy = s.busy := rfl
  rcases busy_cases s with hb | ⟨c, hb⟩ | hb
  · rw [engine_of_none hb, engine_of_none (hbusy.trans hb)]
    exact ⟨o, rfl⟩
  · rw [engine_of_one hb, engine_of_one (hbusy.trans hb)]
    have htick : ∀ now, OffsetBlind (tickOne c now) := fun now =>
      (offsetBlind_pulse now c).comp (offsetBlind_setLastStepTime now)
    exact OffsetBlind.ifActive c (offsetBlind_poll htick) offsetBlind_complete o s
  · rw [engine_of_all hb, engine_of_all (hbusy.trans hb)]
    exact OffsetBlind.ite allDone_withOffsets offsetBlind_complete (offsetBlind_poll offsetBlind_tickBody) o s

theorem offsetBlind_stopIfDone : OffsetBlind stopIfDone :=
  OffsetBlind.ite allDone_withOffsets (offsetBlind_idle.comp (offsetBlind_setAsync .stopped)) offsetBlind_id

/-- A TICK while Running is a poll that ends in the test for completion. -/
theorem tickRunning_eq_poll : tickRunning = poll fun now s => stopIfDone (tickBody now s) := rfl

theorem offsetBlind_tickRunning : OffsetBlind tickRunning := by
  rw [tickRunning_eq_poll]
  exact offsetBlind_poll fun now => offsetBlind_stopIfDone.comp (offsetBlind_tickBody now)

theorem offsetBlind_torqueWrites (e : Bool) : OffsetBlind (torqueWrites e) := fun o s => by
  have hturn : ∀ c, OffsetBlind fun s => torqueChannel e s c := fun c o s => ⟨o, by
    simp only [torqueChannel, withOffsets_get]; rfl⟩
  have hcfg : (withOffsets o s).cfg = s.cfg := rfl
  unfold torqueWrites
  rw [hcfg]
  split
  · exact OffsetBlind.foldl hturn scanOrder o s
  · exact ⟨o, rfl⟩

theorem OffsetBlind.outcome {f : State → State} (hf : OffsetBlind f) (o : Six Offset) (s : State) :
    ∃ o', (.next (f (withOffsets o s)) : Host.Outcome State Fault Refusal) = .next (withOffsets o' (f s)) := by
  obtain ⟨o', h⟩ := hf o s
  exact ⟨o', by rw [h]⟩

/-- Every command but GET_OFFSETS does with other offsets the same to everything but the offsets. -/
theorem exec_withOffsets {i : Instr} {s t : State} (o : Six Offset) (hi : i ≠ .getOffsets) (he : exec i s = .next t) :
    ∃ o', exec i (withOffsets o s) = .next (withOffsets o' t) := by
  have hok := offsetBlind_respond true 0
  cases i with
  | getOffsets => exact absurd rfl hi
  | setSpeed rpm =>
    simp only [exec, execSetSpeed] at he ⊢
    split at he
    · cases he
    · next h => cases he; exact ⟨o, by rw [if_neg h]; rfl⟩
  | resetOffsets => cases he; exact (hok.comp (OffsetBlind.foldl offsetBlind_clearOffset scanOrder)).outcome o s
  | driveOne n steps =>
    simp only [exec, execDriveOne] at he ⊢
    split at he
    · cases he; exact hok.outcome o s
    · next c _ =>
      split at he
      · next h => cases he; rw [if_pos h]; exact hok.outcome o s
      · next h =>
        cases he; rw [if_neg h]
        exact ((offsetBlind_setBusy (.one c)).comp (offsetBlind_load c steps)).outcome o s
  | driveAll ts => cases he; exact ((offsetBlind_setBusy .all).comp (offsetBlind_loadAll ts)).outcome o s
  | tick =>
    have hasync : (withOffsets o s).asyncState = s.asyncState := rfl
    simp only [exec, execTick, hasync] at he ⊢
    split at he
    · cases he; exact (hok.comp offsetBlind_tickRunning).outcome o s
    · cases he; exact hok.outcome o s
    · cases he; exact hok.outcome o s
  | start ts =>
    cases he
    exact (hok.comp ((offsetBlind_setAsync .running).comp (offsetBlind_loadAll ts))).outcome o s
  | torque e =>
    cases he
    exact (hok.comp (offsetBlind_idle.comp (offsetBlind_torqueWrites e))).outcome o s
  | pause | resume | stop => cases he; exact ⟨o, rfl⟩

/-- Settles O55: with other offsets each operation does the same to all but the offsets (`OffsetBlind`), hence so does
each command but GET_OFFSETS, each engine step and a reset. -/
theorem offsetsDecideNothing : Obligations.OffsetsDecideNothing := by
  intro s t o hstep hq
  by_cases hr : RstLow s
  · have hr' : RstLow (withOffsets o s) := hr
    by_cases hb : s.busy = .none
    · have hb' : (withOffsets o s).busy = .none := hb
      rcases hc : s.cmdIn with _ | ⟨w, rest⟩
      · rw [step_of_waiting hr hb hc] at hstep
        cases hstep
        exact ⟨o, step_of_waiting hr' hb' hc⟩
      · rw [step_of_word hr hb hc] at hstep
        rw [step_of_word hr' hb' hc]
        rcases hd : decode w with i | why
        · rw [accept_of_command _ hd] at hstep ⊢
          have hi : i ≠ .getOffsets := fun e => hq.resolve_left (fun n => n hb) w (by simp [hc]) (e ▸ hd)
          exact exec_withOffsets o hi hstep
        · rw [accept_of_illegal _ hd] at hstep ⊢
          cases hstep
          exact ⟨o, rfl⟩
    · rw [step_of_busy hr hb] at hstep
      cases hstep
      rw [step_of_busy hr' hb]
      exact offsetBlind_engine.outcome o { s with rstIn := s.rstIn.tail }
  · rcases hc : s.rstIn with _ | ⟨_ | _, rest⟩
    · simp [RstLow, hc] at hr
    · simp [RstLow, hc] at hr
    · rw [step_of_rst hc] at hstep
      cases hstep
      exact ⟨Six.of fun _ => 0, step_of_rst (s := withOffsets o s) hc⟩

end Sys2Proof.Proofs.StateInvariants
end

section
/-!
The obligations about the state (10_state.md), part 4: what each command may write, from what each leaves.
-/

namespace Sys2Proof.Proofs.StateInvariants

open Sys2Proof.Machine

/-! ### What each command may write (R52) -/

/-- A DRIVE_ONE is ignored, or loads the channel its operand names and sets the engine to work. -/
theorem exec_driveOne_cases {n : BitVec 3} {steps : Delta} {s t : State} (he : exec (.driveOne n steps) s = .next t) :
    t = respond true 0 s ∨ ∃ c, n = chanNumber c ∧ t = setBusy (.one c) (load c steps s) := by
  simp only [exec, execDriveOne] at he
  split at he
  · cases he; exact .inl rfl
  · next c hc =>
    split at he <;> cases he
    · exact .inl rfl
    · exact .inr ⟨c, eq_chanNumber_of_chanOfNumber hc, rfl⟩

/-- What a TICK leaves outside the channel records. -/
theorem exec_tick_frame {s t : State} (he : exec .tick s = .next t) :
    t.interval = s.interval ∧ t.busy = s.busy ∧ t.cfg = s.cfg ∧ t.rstIn = s.rstIn ∧ t.cmdIn = s.cmdIn := by
  rcases exec_tick_cases he with ⟨-, rfl⟩ | ⟨-, -, rfl⟩ | ⟨-, -, rfl⟩ <;> simp

theorem direction_address_of_moved {k : Config} {x y : Channel} (h : Moved k x y) :
    y.direction = x.direction ∧ y.address = x.address := by
  rcases h with rfl | ⟨-, rfl⟩ <;> exact ⟨rfl, rfl⟩

theorem loadAll_writes_ch (targets : Lanes) (s : State) :
    ∃ ch, loadAll targets s = { s with ch := ch } ∧ ∀ c, ch.get c = loadChannel (targets.get c) (s.ch.get c) :=
  ⟨_, loadAll_frame targets s, loadAll_get targets s⟩

theorem clearOffsets_writes_ch (s : State) :
    ∃ ch, scanOrder.foldl clearOffset s = { s with ch := ch } ∧ ∀ c, ch.get c = { s.ch.get c with offset := 0 } := by
  refine ⟨(scanOrder.foldl clearOffset s).ch, rfl, fun c => ?_⟩
  rw [foldl_clearOffset_get, if_pos (mem_scanOrder c)]

/-- A load leaves every channel but the one it names. -/
theorem eq_or_load_get (c : Chan) (delta : Delta) (s : State) (d : Chan) :
    d = c ∨ (load c delta s).ch.get d = s.ch.get d := by
  by_cases hd : d = c
  · exact .inl hd
  · exact .inr (Six.get_set_ne _ _ hd)

/-- A field that a load changes is one of the channel it names. -/
theorem chanNumber_eq_of_load_field_ne {α : Type} (φ : Channel → α) {c d : Chan} {delta : Delta} {s : State}
    (hne : φ ((load c delta s).ch.get d) ≠ φ (s.ch.get d)) : chanNumber c = chanNumber d := by
  rcases eq_or_load_get c delta s d with rfl | h
  · rfl
  · exact absurd (congrArg φ h) hne

/-- A load leaves the offset, the phase index and the address of every channel. -/
theorem load_get_fields (c : Chan) (delta : Delta) (s : State) (d : Chan) :
    ((load c delta s).ch.get d).offset = (s.ch.get d).offset ∧
    ((load c delta s).ch.get d).phaseIndex = (s.ch.get d).phaseIndex ∧
    ((load c delta s).ch.get d).address = (s.ch.get d).address := by
  rcases eq_or_load_get c delta s d with rfl | h
  · simp
  · rw [h]; exact ⟨rfl, rfl, rfl⟩

/-- Settles O44: TICK moves records by pulses, a load writes the count and the direction of the loaded channels, and
the others write single registers or the bus. -/
theorem commandsWriteOnlyTheirState : Obligations.CommandsWriteOnlyTheirState := by
  intro i s t he
  cases i with
  | setSpeed rpm => obtain rfl := exec_setSpeed_next he; simp
  | getOffsets | pause | resume | stop => cases he; simp
  | resetOffsets =>
    cases he
    obtain ⟨ch, hframe, hget⟩ := clearOffsets_writes_ch s
    simp [hframe, hget]
  | driveOne n steps =>
    rcases exec_driveOne_cases he with rfl | ⟨c, rfl, rfl⟩
    · simp
    · have hkept := fun d => load_get_fields c steps s d
      have hnamed := fun {α : Type} (φ : Channel → α) (d : Chan) =>
        chanNumber_eq_of_load_field_ne (c := c) (delta := steps) (s := s) φ (d := d)
      simpa [-load_ch, hkept] using And.intro (hnamed Channel.stepsLeft) (hnamed Channel.direction)
  | driveAll ts =>
    cases he
    obtain ⟨ch, hframe, hget⟩ := loadAll_writes_ch ts s
    simp [hframe, hget]
  | start ts =>
    cases he
    obtain ⟨ch, hframe, hget⟩ := loadAll_writes_ch ts s
    simp [hframe, hget]
  | tick =>
    obtain ⟨hinterval, hbusy, hcfg, hrst, hcmd⟩ := exec_tick_frame he
    have hmoved := fun c => direction_address_of_moved (tick_moved he c)
    simp [hinterval, hbusy, hcfg, hrst, hcmd, hmoved]
  | torque e =>
    cases he
    obtain ⟨b, tr, hframe⟩ := torqueWrites_frame e s
    simp [hframe]

end Sys2Proof.Proofs.StateInvariants
end

section
/-!
The obligations about the interfaces (20_memory.md), part 1: the decoder rejects exactly the words R99 calls illegal.
-/

namespace Sys2Proof.Proofs.Interfaces

open Sys2Proof.Machine

/-! ### The payload bits R99 speaks of are the lanes the decoder compares -/

/-- A run of bits is 0 iff its lowest lane and the bits above that lane are. -/
theorem extractLsb'_eq_zero_iff_lane {m : Nat} (x : BitVec m) (start len : Nat) :
    x.extractLsb' start (len + 16) = 0 ↔ x.extractLsb' start 16 = 0 ∧ x.extractLsb' (start + 16) len = 0 := by
  rw [← BitVec.extractLsb'_append_extractLsb'_eq_extractLsb' rfl, ← BitVec.toNat_inj, BitVec.toNat_append]
  simp [Nat.or_eq_zero_iff, Nat.shiftLeft_eq_zero_iff, ← BitVec.toNat_inj, and_comm]

/-- Lanes 2 to 6 are bits 95:16. -/
theorem lanes_above_eq_zero_iff (w : CommandWord) :
    w.extractLsb' 16 80 = 0 ↔ laneFields w = lane1Only (laneFields w).v1 := by
  have hlanes := (extractLsb'_eq_zero_iff_lane w 16 64).trans <| and_congr_right' <|
    (extractLsb'_eq_zero_iff_lane w 32 48).trans <| and_congr_right' <|
    (extractLsb'_eq_zero_iff_lane w 48 32).trans <| and_congr_right' <| extractLsb'_eq_zero_iff_lane w 64 16
  simpa [laneFields, lane1Only, noLanes, Six.of] using hlanes

/-- The six lanes are bits 95:0. -/
theorem lanes_eq_zero_iff (w : CommandWord) : w.extractLsb' 0 96 = 0 ↔ laneFields w = noLanes := by
  refine (extractLsb'_eq_zero_iff_lane w 0 80).trans ⟨fun ⟨h1, habove⟩ => ?_, fun h => ?_⟩
  · rw [(lanes_above_eq_zero_iff w).mp habove, show (laneFields w).v1 = 0 from h1]; rfl
  · have h1 : (laneFields w).v1 = 0 := by rw [h]; rfl
    exact ⟨h1, (lanes_above_eq_zero_iff w).mpr (by rw [h]; rfl)⟩

/-! ### What each format rejects (R92, R99) -/

theorem ite_illegal_iff {p : Prop} [Decidable p] {e : Illegal} {d : Decoded} :
    (∃ why, (if p then .illegal e else d) = .illegal why) ↔ p ∨ ∃ why, d = .illegal why := by
  split_ifs with h <;> simp [h]

theorem decodeN_illegal_iff {c : BitVec 3} {l : Lanes} {i : Instr} :
    (∃ why, decodeN c l i = .illegal why) ↔ c ≠ 0 ∨ l ≠ noLanes := by
  simp only [decodeN, ite_illegal_iff, reduceCtorEq, exists_false, or_false]

theorem decodeS_illegal_iff {c : BitVec 3} {l : Lanes} {i : BitVec 16 → Decoded} :
    (∃ why, decodeS c l i = .illegal why) ↔ c ≠ 0 ∨ l ≠ lane1Only l.v1 ∨ ∃ why, i l.v1 = .illegal why := by
  simp only [decodeS, ite_illegal_iff]

theorem decodeC_illegal_iff {c : BitVec 3} {l : Lanes} {i : BitVec 3 → Delta → Instr} :
    (∃ why, decodeC c l i = .illegal why) ↔ l ≠ lane1Only l.v1 := by
  simp only [decodeC, ite_illegal_iff, reduceCtorEq, exists_false, or_false]

theorem decodeV_illegal_iff {c : BitVec 3} {l : Lanes} {i : Lanes → Instr} :
    (∃ why, decodeV c l i = .illegal why) ↔ c ≠ 0 := by
  simp only [decodeV, ite_illegal_iff, reduceCtorEq, exists_false, or_false]

/-- The operand of TORQUE is 0 or 1 iff its bits 15:1 are 0. -/
theorem decodeTorque_illegal_iff (a : BitVec 16) :
    (∃ why, decodeTorque a = .illegal why) ↔ a.extractLsb' 1 15 ≠ 0 := by
  have hbits : a.extractLsb' 1 15 = 0 ↔ a = 0 ∨ a = 1 := by
    simp only [← BitVec.toNat_inj, BitVec.extractLsb'_toNat, Nat.shiftRight_eq_div_pow, BitVec.ofNat_eq_ofNat,
      BitVec.toNat_ofNat]
    omega
  rw [ne_eq, hbits]
  unfold decodeTorque
  split_ifs with h0 h1 <;> simp_all

/-- An opcode is of one of the four formats of R92, or is reserved (R95). -/
theorem opcode_format_cases (op : BitVec 4) :
    op ∈ formatN ∨ op = 0x1 ∨ op = 0xB ∨ op ∈ formatC ∨ op ∈ formatV ∨ op ∈ [0x0, 0xC, 0xD, 0xE, 0xF] := by
  revert op
  decide

/-- The decoder on the fields of a word with `rsv` clear, format by format. -/
theorem decodeFields_illegal_iff (op : BitVec 4) (c : BitVec 3) (l : Lanes) :
    (∃ why, decodeFields op c l = .illegal why) ↔
      op = 0x0 ∨ 0xC ≤ op.toNat ∨ (op ∉ formatC ∧ c ≠ 0) ∨ (op ∈ formatN ∧ l ≠ noLanes) ∨
      (op ∈ formatS ++ formatC ∧ l ≠ lane1Only l.v1) ∨ (op = 0xB ∧ l.v1.extractLsb' 1 15 ≠ 0) := by
  have hmem := opcode_format_cases op
  simp only [formatN, formatC, formatV, List.mem_cons, List.not_mem_nil, or_false] at hmem
  rcases hmem with hN | rfl | rfl | rfl | hV | hreserved
  · rcases hN with rfl | rfl | rfl | rfl | rfl | rfl <;>
      exact decodeN_illegal_iff.trans (by simp [formatN, formatS, formatC])
  · exact (decodeS_illegal_iff (i := fun rpm => .command (.setSpeed rpm))).trans
      (by simp [formatN, formatS, formatC])
  · exact (decodeS_illegal_iff (i := decodeTorque)).trans
      (by simp [formatN, formatS, formatC, decodeTorque_illegal_iff])
  · exact decodeC_illegal_iff.trans (by simp [formatN, formatS, formatC])
  · rcases hV with rfl | rfl <;> exact decodeV_illegal_iff.trans (by simp [formatN, formatS, formatC])
  · rcases hreserved with rfl | rfl | rfl | rfl | rfl <;> exact iff_of_true ⟨_, rfl⟩ (by simp)

/-- R99: the words the decoder rejects are those the rule calls illegal. -/
theorem decode_illegal_iff (w : CommandWord) : (∃ why, decode w = .illegal why) ↔ IllegalWord w := by
  have hrsv : rsvField w ≠ 0 ↔ w.getLsbD 99 = true := by
    simp [rsvField, BitVec.eq_of_getLsbD_eq_iff]
  have hoperand : (laneFields w).v1.extractLsb' 1 15 = w.extractLsb' 1 15 := by
    simp [laneFields]
  rw [decode, ite_illegal_iff, decodeFields_illegal_iff, hrsv, hoperand, ne_eq (laneFields w), ← lanes_eq_zero_iff,
    ne_eq (laneFields w), ← lanes_above_eq_zero_iff]
  exact or_left_comm.trans (or_congr_right or_left_comm)

end Sys2Proof.Proofs.Interfaces
end

section
/-!
The obligations about the interfaces (20_memory.md), part 2: the command port, the responses and the clock, each from
what a command and a step of the engine do there.
-/

namespace Sys2Proof.Proofs.Interfaces

open Sys2Proof.Machine Sys2Proof.Proofs.StateInvariants

/-! ### The situations of a step -/

theorem accept_of_illegalWord {w : CommandWord} (s : State) (hw : IllegalWord w) :
    accept w s = .next (respond false 0 s) := by
  obtain ⟨why, hd⟩ := (decode_illegal_iff w).mpr hw
  exact accept_of_illegal s hd

/-- Settles O6: the equation of a step with a word presented (`step_of_word`), by what the word decodes to. -/
theorem stepRunsDecodedCommand : Obligations.StepRunsDecodedCommand := by
  intro s w rest hbusy hrst hcmd
  rw [step_of_word hrst hbusy hcmd]
  exact ⟨fun i hd => accept_of_command _ hd, fun hw => accept_of_illegalWord _ hw⟩

theorem rstIn_of_not_rstLow {s : State} (h : ¬ RstLow s) : ∃ rest, s.rstIn = true :: rest := by
  unfold RstLow at h
  rw [not_not, List.head?_eq_some_iff] at h
  exact h

/-! ### What stands on the port has no effect on an operation of the engine (R62) -/

/-- `s` with the words `q` presented in place of its own. -/
def withCmdIn (q : List CommandWord) (s : State) : State := { s with cmdIn := q }

/-- `f` neither reads nor writes the words presented. -/
def PortBlind (f : State → State) : Prop := ∀ q s, f (withCmdIn q s) = withCmdIn q (f s)

theorem PortBlind.cmdIn_eq {f : State → State} (hf : PortBlind f) (s : State) : (f s).cmdIn = s.cmdIn := by
  have h := congrArg State.cmdIn (hf s.cmdIn s)
  exact h

theorem portBlind_pulseIfActive (now : Time) (c : Chan) : PortBlind fun s => pulseIfActive now s c := fun q s =>
  (apply_ite (withCmdIn q) (active s c = true) (pulse now c s) s).symm

theorem portBlind_tickBody (now : Time) : PortBlind (tickBody now) := fun q s => by
  have hset : setLastStepTime now (withCmdIn q s) = withCmdIn q (setLastStepTime now s) := rfl
  rw [tickBody, tickBody, hset]
  exact List.foldl_hom (withCmdIn q) fun s c => portBlind_pulseIfActive now c q s

theorem sampleNow_withCmdIn (q : List CommandWord) (s : State) :
    sampleNow (withCmdIn q s) = ((sampleNow s).1, withCmdIn q (sampleNow s).2) := by
  rcases hn : s.nowIn with _ | ⟨now, rest⟩ <;> simp [sampleNow, withCmdIn, hn]

/-- A poll decides by the sample, the time of the last tick and the interval. -/
theorem portBlind_poll {tick : Time → State → State} (ht : ∀ now, PortBlind (tick now)) : PortBlind (poll tick) :=
  fun q s => by
    have hgate : ∀ now u, gateOpen now (withCmdIn q u) = gateOpen now u := fun _ _ => rfl
    simp only [poll, sampleNow_withCmdIn, hgate, ht _ q, apply_ite (withCmdIn q)]

theorem portBlind_engine : PortBlind engine := fun q s => by
  have hbusy : (withCmdIn q s).busy = s.busy := rfl
  have hcomplete : complete (withCmdIn q s) = withCmdIn q (complete s) := rfl
  rcases busy_cases s with hb | ⟨c, hb⟩ | hb
  · rw [engine_of_none hb, engine_of_none (hbusy.trans hb)]
  · have hactive : active (withCmdIn q s) c = active s c := rfl
    rw [engine_of_one hb, engine_of_one (hbusy.trans hb), hactive, hcomplete,
      portBlind_poll (fun _ _ _ => rfl), apply_ite (withCmdIn q)]
  · have hdone : allDone (withCmdIn q s) = allDone s := rfl
    rw [engine_of_all hb, engine_of_all (hbusy.trans hb), hdone, hcomplete,
      portBlind_poll portBlind_tickBody, apply_ite (withCmdIn q)]

/-- Settles O8: a step with a command in progress is one of the engine, and the engine neither reads nor writes the
words presented (`portBlind_engine`). -/
theorem busyPortAcceptsNothing : Obligations.BusyPortAcceptsNothing := by
  intro s q hbusy hrst
  refine ⟨by simp [cmdReady, hbusy], engine { s with rstIn := s.rstIn.tail }, step_of_busy hrst hbusy,
    portBlind_engine.cmdIn_eq _, ?_⟩
  have hstep := step_of_busy (s := withCmdIn q s) hrst hbusy
  exact hstep.trans (congrArg _ (portBlind_engine q { s with rstIn := s.rstIn.tail }))

/-! ### What a command and an engine step do at the interfaces -/

/-- `t` has the responses, the words presented, the clock and the `busy` of `s`. -/
structure SameInterfaces (s t : State) : Prop where
  busy : t.busy = s.busy
  responses : t.responses = s.responses
  cmdIn : t.cmdIn = s.cmdIn
  nowIn : t.nowIn = s.nowIn
  draws : t.draws = s.draws

/-- `s` with the sample taken that command `i` takes: one for a TICK while Running, none for any other (R72). -/
def sampledFor (i : Instr) (s : State) : State :=
  if i = .tick ∧ s.asyncState = .running then (sampleNow s).2 else s

@[simp] theorem sampledFor_busy (i : Instr) (s : State) : (sampledFor i s).busy = s.busy := by
  unfold sampledFor; split <;> simp
@[simp] theorem sampledFor_responses (i : Instr) (s : State) : (sampledFor i s).responses = s.responses := by
  unfold sampledFor; split <;> simp
@[simp] theorem sampledFor_cmdIn (i : Instr) (s : State) : (sampledFor i s).cmdIn = s.cmdIn := by
  unfold sampledFor; split <;> simp

/-- From `s` to `t` some work is done that the interfaces named do not show, and then a response is given or the engine
is set to work. -/
inductive AnsweredOrBusy (s : State) : State → Prop
  | answered {u : State} {ok : Bool} {data : RspData} (work : SameInterfaces s u) : AnsweredOrBusy s (respond ok data u)
  | busied {u : State} {b : Busy} (work : SameInterfaces s u) (hb : b ≠ .none) : AnsweredOrBusy s (setBusy b u)

/-- A command other than TICK does its work and then answers, or sets the engine to work. -/
theorem exec_answeredOrBusy_of_ne_tick {i : Instr} {s t : State} (hi : i ≠ .tick) (he : exec i s = .next t) :
    AnsweredOrBusy s t := by
  cases i with
  | tick => exact absurd rfl hi
  | setSpeed rpm =>
    obtain rfl := exec_setSpeed_next he
    exact .answered ⟨rfl, rfl, rfl, rfl, rfl⟩
  | driveOne n steps =>
    rcases exec_driveOne_cases he with rfl | ⟨c, -, rfl⟩
    · exact .answered ⟨rfl, rfl, rfl, rfl, rfl⟩
    · exact .busied ⟨rfl, rfl, rfl, rfl, rfl⟩ Busy.noConfusion
  | driveAll ts =>
    cases he
    rw [loadAll_frame]
    exact .busied ⟨rfl, rfl, rfl, rfl, rfl⟩ Busy.noConfusion
  | start ts =>
    cases he
    rw [loadAll_frame]
    exact .answered ⟨rfl, rfl, rfl, rfl, rfl⟩
  | resetOffsets =>
    cases he
    obtain ⟨ch, hframe, -⟩ := clearOffsets_writes_ch s
    rw [hframe]
    exact .answered ⟨rfl, rfl, rfl, rfl, rfl⟩
  | torque e =>
    cases he
    obtain ⟨b, tr, hframe⟩ := torqueWrites_frame e s
    rw [hframe]
    exact .answered ⟨rfl, rfl, rfl, rfl, rfl⟩
  | getOffsets | pause | resume | stop => cases he; exact .answered ⟨rfl, rfl, rfl, rfl, rfl⟩

/-- Every command takes its sample, does its work and then answers, or sets the engine to work. -/
theorem exec_answeredOrBusy {i : Instr} {s t : State} (he : exec i s = .next t) :
    AnsweredOrBusy (sampledFor i s) t := by
  by_cases hi : i = .tick
  · subst hi
    rcases exec_tick_cases he with ⟨hn, rfl⟩ | ⟨hrunning, -, rfl⟩ | ⟨hrunning, -, rfl⟩
    · rw [sampledFor, if_neg (fun h => hn h.2)]
      exact .answered ⟨rfl, rfl, rfl, rfl, rfl⟩
    · rw [sampledFor, if_pos ⟨rfl, hrunning⟩]
      exact .answered ⟨rfl, rfl, rfl, rfl, rfl⟩
    · rw [sampledFor, if_pos ⟨rfl, hrunning⟩]
      exact .answered (by constructor <;> simp)
  · rw [sampledFor, if_neg (fun h => hi h.1)]
    exact exec_answeredOrBusy_of_ne_tick hi he

/-- A blocking command is in progress and has steps left. -/
def Driving (s : State) : Prop := (∃ c, s.busy = .one c ∧ HasSteps s c) ∨ (s.busy = .all ∧ ∃ c, HasSteps s c)

/-- A blocking command is in progress and has no steps left. -/
def Finished (s : State) : Prop := (∃ c, s.busy = .one c ∧ ¬ HasSteps s c) ∨ (s.busy = .all ∧ ∀ c, ¬ HasSteps s c)

theorem Driving.busy_ne_none {s : State} (h : Driving s) : s.busy ≠ .none := by
  rcases h with ⟨c, hb, -⟩ | ⟨hb, -⟩ <;> simp [hb]

theorem Finished.busy_ne_none {s : State} (h : Finished s) : s.busy ≠ .none := by
  rcases h with ⟨c, hb, -⟩ | ⟨hb, -⟩ <;> simp [hb]

theorem driving_or_finished {s : State} (hb : s.busy ≠ .none) : Driving s ∨ Finished s := by
  rcases busy_cases s with h | ⟨c, h⟩ | h
  · exact absurd h hb
  · by_cases hc : HasSteps s c
    · exact .inl (.inl ⟨c, h, hc⟩)
    · exact .inr (.inl ⟨c, h, hc⟩)
  · by_cases hc : ∃ c, HasSteps s c
    · exact .inl (.inr ⟨h, hc⟩)
    · exact .inr (.inr ⟨h, not_exists.mp hc⟩)

theorem engine_of_finished {s : State} (h : Finished s) : engine s = complete s := by
  rcases h with ⟨c, hb, hc⟩ | ⟨hb, hc⟩
  · rw [engine_of_one hb, if_neg (fun ha => hc ((active_iff s c).mp ha))]
  · rw [engine_of_all hb, if_pos ((allDone_iff s).mpr hc)]

/-- With steps left the engine polls: it takes one sample and does no more at the interfaces but write the bus. -/
theorem engine_of_driving {s : State} (h : Driving s) : SameInterfaces (sampleNow s).2 (engine s) := by
  rcases h with ⟨c, hb, hc⟩ | ⟨hb, hc⟩
  · rcases engine_one_cases hb with ⟨hn, -⟩ | ⟨-, -, he⟩ | ⟨-, -, he⟩
    · exact absurd hc hn
    · rw [he]; exact ⟨rfl, rfl, rfl, rfl, rfl⟩
    · rw [he]; exact ⟨rfl, rfl, rfl, rfl, rfl⟩
  · rcases engine_all_cases hb with ⟨hn, -⟩ | ⟨-, -, he⟩ | ⟨-, -, he⟩
    · exact absurd hc (not_exists.mpr hn)
    · rw [he]; exact ⟨rfl, rfl, rfl, rfl, rfl⟩
    · rw [he, tickBody_frame]; exact ⟨rfl, rfl, rfl, rfl, rfl⟩

/-! ### One response for every command (R64) -/

/-- The responses of `t` are those of `s` and perhaps more, and responses, command in progress and words presented count
the same in both. -/
def Balanced (s t : State) : Prop :=
  (∃ r, t.responses = s.responses ++ r) ∧
  t.responses.length + inProgress t + t.cmdIn.length = s.responses.length + inProgress s + s.cmdIn.length

/-- Nothing given, and a command in progress before and after or neither. -/
theorem balanced_of_same {s t : State} (hresp : t.responses = s.responses) (hbusy : t.busy = s.busy)
    (hcmd : t.cmdIn = s.cmdIn) : Balanced s t :=
  ⟨⟨[], by simp [hresp]⟩, by simp only [hresp, inProgress, hbusy, hcmd]⟩

/-- One response given, for a word accepted in this step or for the command that was in progress. -/
theorem balanced_of_answer {s t : State} {a : Response} (hresp : t.responses = s.responses ++ [a]) (ht : t.busy = .none)
    (hpaid : t.cmdIn.length + 1 = inProgress s + s.cmdIn.length) : Balanced s t := by
  refine ⟨⟨[a], hresp⟩, ?_⟩
  simp only [hresp, List.length_append, List.length_singleton, inProgress, ht, if_true]
  rw [inProgress] at hpaid
  omega

/-- A word accepted sets the engine to work. -/
theorem balanced_of_busy {s t : State} (hresp : t.responses = s.responses) (hs : s.busy = .none) (ht : t.busy ≠ .none)
    (hpaid : t.cmdIn.length + 1 = s.cmdIn.length) : Balanced s t := by
  refine ⟨⟨[], by simp [hresp]⟩, ?_⟩
  simp only [hresp, inProgress, hs, ht, if_true, if_false]
  omega

/-- Settles O9: a word accepted is answered or sets the engine to work (`exec_answeredOrBusy`); the engine's polls give
no response, and its completion gives one as `busy` falls. -/
theorem oneResponsePerCommand : Obligations.OneResponsePerCommand := by
  intro s t hr hstep
  change Balanced s t
  by_cases hb : s.busy = .none
  · rcases hc : s.cmdIn with _ | ⟨w, rest⟩
    · rw [step_of_waiting hr hb hc] at hstep
      cases hstep
      exact balanced_of_same rfl rfl rfl
    · rw [step_of_word hr hb hc] at hstep
      rcases hd : decode w with i | why
      · rw [accept_of_command _ hd] at hstep
        rcases exec_answeredOrBusy hstep with @⟨u, ok, data, work⟩ | @⟨u, b, work, hnone⟩
        · exact balanced_of_answer (a := ⟨ok, data⟩) (by simp [work.responses]) (by simp [work.busy, hb])
            (by simp [work.cmdIn, inProgress, hb, hc])
        · exact balanced_of_busy (by simp [work.responses]) hb hnone (by simp [work.cmdIn, hc])
      · rw [accept_of_illegal _ hd] at hstep
        cases hstep
        exact balanced_of_answer rfl hb (by simp [inProgress, hb, hc])
  · rw [step_of_busy hr hb] at hstep
    cases hstep
    rcases driving_or_finished (s := { s with rstIn := s.rstIn.tail }) hb with h | h
    · have hpoll := engine_of_driving h
      exact balanced_of_same (by simp [hpoll.responses]) (by simp [hpoll.busy]) (by simp [hpoll.cmdIn])
    · rw [engine_of_finished h]
      exact balanced_of_answer rfl rfl (by simp [inProgress, hb, Nat.add_comm])

/-! ### What samples the clock (R70, R72) -/

/-- The coming samples and the count of free ones are the same in `s` and `t`. -/
def SameClock (s t : State) : Prop := t.nowIn = s.nowIn ∧ t.draws = s.draws

/-- A command leaves the clock but for the sample it takes. -/
theorem exec_sameClock {i : Instr} {s t : State} (he : exec i s = .next t) : SameClock (sampledFor i s) t := by
  rcases exec_answeredOrBusy he with ⟨work⟩ | ⟨work, -⟩ <;> exact ⟨work.nowIn, work.draws⟩

/-- A sample takes the same from the clock whatever `rst` is. -/
theorem sampleNow_sameClock (s : State) (r : List Bool) :
    SameClock (sampleNow s).2 (sampleNow { s with rstIn := r }).2 := by
  rcases hn : s.nowIn with _ | ⟨now, rest⟩ <;> simp [SameClock, sampleNow, hn]

/-- A step that accepts no command, because none is presented or the word is illegal, leaves the clock. -/
theorem step_sameClock_of_no_command {s t : State} (hr : RstLow s) (hb : s.busy = .none) (hstep : step s = .next t)
    (hillegal : ∀ w ∈ s.cmdIn.head?, IllegalWord w) : SameClock s t := by
  rcases hc : s.cmdIn with _ | ⟨w, rest⟩
  · rw [step_of_waiting hr hb hc] at hstep
    cases hstep
    exact ⟨rfl, rfl⟩
  · rw [step_of_word hr hb hc, accept_of_illegalWord _ (hillegal w (by simp [hc]))] at hstep
    cases hstep
    exact ⟨rfl, rfl⟩

theorem step_sameClock_of_driving {s t : State} (hr : RstLow s) (h : Driving s) (hstep : step s = .next t) :
    SameClock (sampleNow s).2 t := by
  have hpoll := engine_of_driving (s := { s with rstIn := s.rstIn.tail }) h
  obtain ⟨hnow, hdraws⟩ := sampleNow_sameClock s s.rstIn.tail
  rw [step_of_busy hr h.busy_ne_none] at hstep
  cases hstep
  exact ⟨hpoll.nowIn.trans hnow, hpoll.draws.trans hdraws⟩

theorem step_sameClock_of_finished {s t : State} (hr : RstLow s) (h : Finished s) (hstep : step s = .next t) :
    SameClock s t := by
  rw [step_of_busy hr h.busy_ne_none, engine_of_finished (s := { s with rstIn := s.rstIn.tail }) h] at hstep
  cases hstep
  exact ⟨rfl, rfl⟩

theorem step_sameClock_of_rst {s t : State} (hr : ¬ RstLow s) (hstep : step s = .next t) : SameClock s t := by
  obtain ⟨rest, hrst⟩ := rstIn_of_not_rstLow hr
  rw [step_of_rst hrst] at hstep
  cases hstep
  exact ⟨rfl, rfl⟩

/-- Settles O46: a command takes the sample `sampledFor` says, a poll one, and every other step none. -/
theorem clockSampledOnlyByPolls : Obligations.ClockSampledOnlyByPolls := by
  refine ⟨fun s now rest hn => ?_, fun s hn => ?_, fun i s t he hi => ?_, fun s t he hrunning => ?_,
    fun s t => step_sameClock_of_no_command, fun s t => step_sameClock_of_driving,
    fun s t => step_sameClock_of_finished, fun s t => step_sameClock_of_rst⟩
  · simp only [sampleNow, hn]
  · simp only [sampleNow, hn]
  · have hclock := exec_sameClock he
    rwa [sampledFor, if_neg hi] at hclock
  · have hclock := exec_sameClock he
    rwa [sampledFor, if_pos ⟨rfl, hrunning⟩] at hclock

end Sys2Proof.Proofs.Interfaces
end

section
/-!
The obligations about the encoding (30_encoding.md), part 1: the round trips of commands and words, and the words
that are no command.
-/

namespace Sys2Proof.Proofs.Encoding

open Sys2Proof.Machine Sys2Proof.Proofs.Interfaces

/-! ### The operand fields of a command (R92) -/

/-- The `chan` field of a command's word: the operand of format C, else 0. -/
def chanOperand : Instr → BitVec 3
  | .driveOne chan _ => chan
  | _ => 0

/-- Lane 1 of the word of TORQUE. -/
def torqueLane (enabled : Bool) : BitVec 16 := if enabled then 1 else 0

/-- The payload of a command's word. -/
def laneOperands : Instr → Lanes
  | .setSpeed rpm => lane1Only rpm
  | .driveOne _ steps => lane1Only steps
  | .driveAll targets => targets
  | .start targets => targets
  | .torque enabled => lane1Only (torqueLane enabled)
  | _ => noLanes

theorem encode_eq_packWord (i : Instr) : encode i = packWord (opcode i) 0 (chanOperand i) (laneOperands i) := by
  cases i <;> rfl

/-! ### Which command each format reads (R92, R95) -/

theorem ite_command_iff {p : Prop} [Decidable p] {e : Illegal} {d : Decoded} {i : Instr} :
    (if p then .illegal e else d) = .command i ↔ ¬ p ∧ d = .command i := by
  split_ifs with h <;> simp [h]

theorem decodeN_command_iff {c : BitVec 3} {l : Lanes} {i j : Instr} :
    decodeN c l i = .command j ↔ c = 0 ∧ l = noLanes ∧ i = j := by
  simp only [decodeN, ite_command_iff, not_not, Decoded.command.injEq]

theorem decodeS_command_iff {c : BitVec 3} {l : Lanes} {f : BitVec 16 → Decoded} {j : Instr} :
    decodeS c l f = .command j ↔ c = 0 ∧ l = lane1Only l.v1 ∧ f l.v1 = .command j := by
  simp only [decodeS, ite_command_iff, not_not]

theorem decodeC_command_iff {c : BitVec 3} {l : Lanes} {f : BitVec 3 → Delta → Instr} {j : Instr} :
    decodeC c l f = .command j ↔ l = lane1Only l.v1 ∧ f c l.v1 = j := by
  simp only [decodeC, ite_command_iff, not_not, Decoded.command.injEq]

theorem decodeV_command_iff {c : BitVec 3} {l : Lanes} {f : Lanes → Instr} {j : Instr} :
    decodeV c l f = .command j ↔ c = 0 ∧ f l = j := by
  simp only [decodeV, ite_command_iff, not_not, Decoded.command.injEq]

theorem decodeTorque_command_iff {a : BitVec 16} {j : Instr} :
    decodeTorque a = .command j ↔ ∃ enabled, a = torqueLane enabled ∧ .torque enabled = j := by
  unfold decodeTorque
  split_ifs with h0 h1 <;> simp_all [torqueLane]

/-! ### The opcode map and the layout undo each other (R91, R95) -/

/-- On the fields that a command's word is laid out from, the opcode map reads the command. -/
theorem decodeFields_operands (i : Instr) : decodeFields (opcode i) (chanOperand i) (laneOperands i) = .command i := by
  cases i with
  | setSpeed rpm => exact (decodeS_command_iff (f := fun rpm => .command (.setSpeed rpm))).mpr ⟨rfl, rfl, rfl⟩
  | getOffsets | resetOffsets | tick | pause | resume | stop => exact decodeN_command_iff.mpr ⟨rfl, rfl, rfl⟩
  | driveOne chan steps => exact decodeC_command_iff.mpr ⟨rfl, rfl⟩
  | driveAll targets | start targets => exact decodeV_command_iff.mpr ⟨rfl, rfl⟩
  | torque enabled =>
    exact decodeS_command_iff.mpr ⟨rfl, rfl, decodeTorque_command_iff.mpr ⟨enabled, rfl, rfl⟩⟩

/-- The opcode map reads a command only from the fields its word is laid out from: it drops no bit. -/
theorem operands_of_decodeFields {op : BitVec 4} {c : BitVec 3} {l : Lanes} {i : Instr}
    (h : decodeFields op c l = .command i) : opcode i = op ∧ chanOperand i = c ∧ laneOperands i = l := by
  have hmem := opcode_format_cases op
  simp only [formatN, formatC, formatV, List.mem_cons, List.not_mem_nil, or_false] at hmem
  rcases hmem with hN | rfl | rfl | rfl | hV | hreserved
  · rcases hN with rfl | rfl | rfl | rfl | rfl | rfl <;>
      · obtain ⟨rfl, rfl, rfl⟩ := decodeN_command_iff.mp h
        exact ⟨rfl, rfl, rfl⟩
  · obtain ⟨rfl, hl, hi⟩ := (decodeS_command_iff (f := fun rpm => .command (.setSpeed rpm))).mp h
    cases hi
    exact ⟨rfl, rfl, hl.symm⟩
  · obtain ⟨rfl, hl, hi⟩ := decodeS_command_iff.mp h
    obtain ⟨enabled, hv, rfl⟩ := decodeTorque_command_iff.mp hi
    exact ⟨rfl, rfl, (hl.trans (congrArg lane1Only hv)).symm⟩
  · obtain ⟨hl, rfl⟩ := decodeC_command_iff.mp h
    exact ⟨rfl, rfl, hl.symm⟩
  · rcases hV with rfl | rfl <;>
      · obtain ⟨rfl, rfl⟩ := decodeV_command_iff.mp h
        exact ⟨rfl, rfl, rfl⟩
  · rcases hreserved with rfl | rfl | rfl | rfl | rfl <;> cases h

/-- Settles O1: the word is the packing of the operand fields, from which the opcode map reads the command. -/
theorem decodeOfEncode : Obligations.DecodeOfEncode := by
  intro i
  rw [encode_eq_packWord]
  exact (decode_packWord _ _ _).trans (decodeFields_operands i)

/-- Settles O2: a word with `rsv` clear is the packing of its fields, and those are the fields of the command read. -/
theorem encodeOfDecode : Obligations.EncodeOfDecode := by
  intro w i h
  obtain ⟨hrsv, hfields⟩ := ite_command_iff.mp h
  obtain ⟨hop, hchan, hlanes⟩ := operands_of_decodeFields hfields
  rw [encode_eq_packWord, hop, hchan, hlanes, ← not_not.mp hrsv]
  exact packWord_fields w

theorem decode_command_iff {w : CommandWord} {i : Instr} : decode w = .command i ↔ encode i = w :=
  ⟨encodeOfDecode w i, fun h => h ▸ decodeOfEncode i⟩

/-- Settles O4: R99's conditions are those of the decoder (`decode_illegal_iff`), and an illegal word accepted is only
answered. -/
theorem illegalWordsDoNothing : Obligations.IllegalWordsDoNothing :=
  ⟨decode_illegal_iff, fun _ s hw => accept_of_illegalWord s hw, .inl rfl⟩

end Sys2Proof.Proofs.Encoding
end

section
/-!
The obligations about the encoding (30_encoding.md), part 2: the rows of the opcode table (R96), format by format, and
the address table (R105).
-/

namespace Sys2Proof.Proofs.Encoding

open Sys2Proof.Machine

/-! ### What a row's match and mask say of the fields -/

theorem packWord_eq_iff {op : BitVec 4} {c : BitVec 3} {l : Lanes} {w : CommandWord} :
    packWord op 0 c l = w ↔ opField w = op ∧ rsvField w = 0 ∧ chanField w = c ∧ laneFields w = l := by
  conv_lhs => rw [← packWord_fields w, packWord_inj]
  simp only [eq_comm]

/-- The mask of a row that tests all of `op` and `rsv`, the bits `cm` of `chan`, `m1` of lane 1 and `m` of every other
lane. -/
def rowMask (cm : BitVec 3) (m1 m : BitVec 16) : CommandWord := packWord 0xF 1 cm ⟨m1, m, m, m, m, m⟩

/-- The mask of format N: no operand. -/
def maskN : CommandWord := rowMask (.allOnes 3) (.allOnes 16) (.allOnes 16)

/-- The mask of format S: the operand is lane 1. -/
def maskS : CommandWord := rowMask (.allOnes 3) 0 (.allOnes 16)

/-- The mask of format C: the operands are `chan` and lane 1. -/
def maskC : CommandWord := rowMask 0 0 (.allOnes 16)

/-- The mask of format V: the operands are the six lanes. -/
def maskV : CommandWord := rowMask (.allOnes 3) 0 0

/-- The mask of TORQUE: of format S, but the operand is bit 0 of lane 1 only. -/
def maskTorque : CommandWord := rowMask (.allOnes 3) 0xFFFE (.allOnes 16)

/-- The match of a row: its opcode, and 0 in every other bit. -/
def rowMatch (op : BitVec 4) : CommandWord := packWord op 0 0 noLanes

theorem and_rowMask_iff {w : CommandWord} {op : BitVec 4} {cm : BitVec 3} {m1 m : BitVec 16} :
    w &&& rowMask cm m1 m = rowMatch op ↔
      opField w = op ∧ rsvField w = 0 ∧ chanField w &&& cm = 0 ∧ (laneFields w).v1 &&& m1 = 0 ∧
      (laneFields w).v2 &&& m = 0 ∧ (laneFields w).v3 &&& m = 0 ∧ (laneFields w).v4 &&& m = 0 ∧
      (laneFields w).v5 &&& m = 0 ∧ (laneFields w).v6 &&& m = 0 := by
  have hop : opField w &&& 0xF = opField w := BitVec.and_allOnes
  have hrsv : rsvField w &&& 1 = rsvField w := BitVec.and_allOnes
  conv_lhs => rw [← packWord_fields w, rowMask, rowMatch, packWord_and, packWord_inj, hop, hrsv]
  simp only [Six.of, Six.get, noLanes, Six.mk.injEq]

/-! ### The words of each format are those its row selects (R92, R96) -/

theorem eq_lane1Only_iff {l : Lanes} {a : Delta} :
    l = lane1Only a ↔ l.v1 = a ∧ l.v2 = 0 ∧ l.v3 = 0 ∧ l.v4 = 0 ∧ l.v5 = 0 ∧ l.v6 = 0 := by
  obtain ⟨v1, v2, v3, v4, v5, v6⟩ := l
  exact iff_of_eq (Six.mk.injEq ..)

theorem formatN_match_iff {op : BitVec 4} {w : CommandWord} :
    packWord op 0 0 noLanes = w ↔ w &&& maskN = rowMatch op := by
  simp only [maskN, packWord_eq_iff, and_rowMask_iff, BitVec.and_allOnes]
  exact and_congr_right' <| and_congr_right' <| and_congr_right' eq_lane1Only_iff

theorem formatS_match_iff {op : BitVec 4} {w : CommandWord} :
    (∃ a, packWord op 0 0 (lane1Only a) = w) ↔ w &&& maskS = rowMatch op := by
  simp only [maskS, packWord_eq_iff, and_rowMask_iff, eq_lane1Only_iff, BitVec.and_allOnes]
  simp

theorem formatC_match_iff {op : BitVec 4} {w : CommandWord} :
    (∃ c a, packWord op 0 c (lane1Only a) = w) ↔ w &&& maskC = rowMatch op := by
  simp only [maskC, packWord_eq_iff, and_rowMask_iff, eq_lane1Only_iff, BitVec.and_allOnes]
  simp

theorem formatV_match_iff {op : BitVec 4} {w : CommandWord} :
    (∃ l, packWord op 0 0 l = w) ↔ w &&& maskV = rowMatch op := by
  simp only [maskV, packWord_eq_iff, and_rowMask_iff, BitVec.and_allOnes]
  simp

/-- The operand of TORQUE is bit 0 of lane 1. -/
theorem exists_torqueLane_iff {a : BitVec 16} : (∃ enabled, a = torqueLane enabled) ↔ a &&& 0xFFFE = 0 := by
  constructor
  · rintro ⟨enabled, rfl⟩
    cases enabled <;> rfl
  · intro h
    refine ⟨a.getLsbD 0, ?_⟩
    calc a = a &&& 0xFFFE ||| a &&& 1 := by rw [← BitVec.and_or_distrib_left]; exact BitVec.and_allOnes.symm
      _ = a &&& 1 := by rw [h, BitVec.ofNat_eq_ofNat, BitVec.zero_or]
      _ = torqueLane (a.getLsbD 0) := by
        rw [BitVec.ofNat_eq_ofNat, BitVec.and_one_eq_setWidth_ofBool_getLsbD]
        cases a.getLsbD 0 <;> rfl

theorem torque_match_iff {op : BitVec 4} {w : CommandWord} :
    (∃ enabled, packWord op 0 0 (lane1Only (torqueLane enabled)) = w) ↔ w &&& maskTorque = rowMatch op := by
  simp only [maskTorque, packWord_eq_iff, and_rowMask_iff, eq_lane1Only_iff, BitVec.and_allOnes,
    ← exists_torqueLane_iff]
  simp

/-! ### The table (R95, R96) -/

theorem exists_instr_iff {p : Instr → Prop} : (∃ i, p i) ↔
    (∃ rpm, p (.setSpeed rpm)) ∨ p .getOffsets ∨ p .resetOffsets ∨ (∃ chan steps, p (.driveOne chan steps)) ∨
    (∃ targets, p (.driveAll targets)) ∨ p .tick ∨ (∃ targets, p (.start targets)) ∨ p .pause ∨ p .resume ∨ p .stop ∨
    ∃ enabled, p (.torque enabled) := by
  constructor
  · rintro ⟨i, hi⟩
    cases i <;> grind
  · grind

/-- The table with its masks and matches laid out as fields. -/
theorem opcodeTable_eq : opcodeTable = [
    ⟨"SET_SPEED", rowMatch 0x1, maskS⟩, ⟨"GET_OFFSETS", rowMatch 0x2, maskN⟩, ⟨"RESET_OFFSETS", rowMatch 0x3, maskN⟩,
    ⟨"DRIVE_ONE", rowMatch 0x4, maskC⟩, ⟨"DRIVE_ALL", rowMatch 0x5, maskV⟩, ⟨"TICK", rowMatch 0x6, maskN⟩,
    ⟨"START", rowMatch 0x7, maskV⟩, ⟨"PAUSE", rowMatch 0x8, maskN⟩, ⟨"RESUME", rowMatch 0x9, maskN⟩,
    ⟨"STOP", rowMatch 0xA, maskN⟩, ⟨"TORQUE", rowMatch 0xB, maskTorque⟩] := by
  decide

/-- A word decodes to a command of a row's mnemonic iff it matches the row under its mask. -/
theorem decodes_to_row_iff {w : CommandWord} {row : TableRow} (hrow : row ∈ opcodeTable) :
    (∃ i, decode w = .command i ∧ mnemonic i = row.mnemonic) ↔ w &&& row.mask = row.pattern := by
  simp only [opcodeTable_eq, List.mem_cons, List.not_mem_nil, or_false] at hrow
  rcases hrow with rfl | rfl | rfl | rfl | rfl | rfl | rfl | rfl | rfl | rfl | rfl <;>
    simp only [decode_command_iff, exists_instr_iff, mnemonic, String.reduceEq, and_true, and_false, exists_false,
      or_false, false_or]
  · exact formatS_match_iff
  · exact formatN_match_iff
  · exact formatN_match_iff
  · exact formatC_match_iff
  · exact formatV_match_iff
  · exact formatN_match_iff
  · exact formatV_match_iff
  · exact formatN_match_iff
  · exact formatN_match_iff
  · exact formatN_match_iff
  · exact torque_match_iff

theorem row_eq_of_mnemonic_eq : ∀ r₁ ∈ opcodeTable, ∀ r₂ ∈ opcodeTable, r₁.mnemonic = r₂.mnemonic → r₁ = r₂ := by
  decide

theorem exists_row_of_instr (i : Instr) : ∃ row ∈ opcodeTable, mnemonic i = row.mnemonic := by
  cases i <;> simp [opcodeTable, mnemonic]

/-- Settles O3: a row selects the words of its mnemonic (`decodes_to_row_iff`), so two rows that select one word have
the mnemonic of the one command it decodes to, and every command has a row. -/
theorem matchAndMaskPartitionWords : Obligations.MatchAndMaskPartitionWords := by
  refine fun w => ⟨fun row => decodes_to_row_iff, fun r₁ h₁ r₂ h₂ hw₁ hw₂ => ?_, ?_⟩
  · obtain ⟨i, hi, hm₁⟩ := (decodes_to_row_iff h₁).mpr hw₁
    obtain ⟨j, hj, hm₂⟩ := (decodes_to_row_iff h₂).mpr hw₂
    obtain rfl : i = j := Decoded.command.inj (hi.symm.trans hj)
    exact row_eq_of_mnemonic_eq r₁ h₁ r₂ h₂ (hm₁.symm.trans hm₂)
  · cases hd : decode w with
    | command i =>
      obtain ⟨row, hrow, hm⟩ := exists_row_of_instr i
      have hw : w &&& row.mask = row.pattern := (decodes_to_row_iff hrow).mp ⟨i, hd, hm⟩
      exact iff_of_false (by simp) fun hnone => hnone row hrow hw
    | illegal why =>
      refine iff_of_true ⟨why, rfl⟩ fun row hrow hw => ?_
      obtain ⟨i, hi, -⟩ := (decodes_to_row_iff hrow).mpr hw
      cases hd.symm.trans hi

/-! ### The addresses (R105) -/

/-- Settles O14: at shift 1 an address is twice its field, and the fields are those of R105. -/
theorem addressTable : Obligations.AddressTable := by
  intro k hshift
  constructor <;>
  · intro hscheme
    simp only [addrOf, hshift, hscheme]
    decide

end Sys2Proof.Proofs.Encoding
end

section
/-!
The obligations about the shared primitives (40_scheduler_waveform_primitives.md): the interval and the gate, the
waveform generator, the strobe pair, and what a load, a pulse, a tick and a completion do.
-/

namespace Sys2Proof.Proofs.Primitives

open Sys2Proof.Machine Sys2Proof.Proofs.StateInvariants Sys2Proof.Proofs.Interfaces

/-! ### The interval and the gate (R120 to R123) -/

/-- A quotient of 60000 fits the interval's 16 bits, so nothing of it is lost. -/
theorem intervalOf_toNat (k : Config) (rpm : Rpm) : (intervalOf k rpm).toNat = 60000 / k.stepsPerRev / rpm.toNat := by
  have hle : 60000 / k.stepsPerRev / rpm.toNat ≤ 60000 := (Nat.div_le_self _ _).trans (Nat.div_le_self _ _)
  rw [intervalOf, BitVec.toNat_ofNat, Nat.mod_eq_of_lt (by omega)]

/-- Settles O12: the interval is the quotient itself (`intervalOf_toNat`), and the rest are laws of division. -/
theorem intervalIsQuotient : Obligations.IntervalIsQuotient := by
  refine ⟨fun a b c _ _ => Nat.div_div_eq_div_mul a b c, fun k rpm _ hrpm => ?_⟩
  have hpos : rpm.toNat ≠ 0 := fun h => hrpm (BitVec.eq_of_toNat_eq h)
  rw [intervalOf_toNat]
  refine ⟨rfl, Nat.div_div_eq_div_mul .., (Nat.div_le_self _ _).trans (Nat.div_le_self _ _), ?_⟩
  rw [Nat.div_eq_zero_iff, or_iff_right hpos]

/-- The modular difference of two times, over the integers. -/
theorem toNat_time_sub (now last : Time) :
    ((now - last).toNat : Int) = ((now.toNat : Int) - last.toNat) % 2 ^ 32 := by
  have hlast := last.isLt
  rw [BitVec.toNat_sub]
  omega

/-- Settles O13: the gate compares with the difference of the times as words (`mayStep_iff`), which is the
modular one. -/
theorem gateIsModularDifference : Obligations.GateIsModularDifference := by
  refine ⟨fun now last n => ?_, fun now last n hle => ?_, fun now last => ?_⟩
  · rw [mayStep_iff, ← toNat_time_sub, Nat.cast_le]
  · rw [mayStep_iff, BitVec.toNat_sub_of_le (BitVec.le_def.mpr hle)]
  · exact (mayStep_iff now last 0).mpr (Nat.zero_le _)

/-! ### The waveform generator (R130, R131) -/

/-- Settles O16: the index by `nextIndex_toNat` at length 4; the pattern is the table entry, inside the coil field by
`patternOf_inside`. -/
theorem nextPhaseStandard : Obligations.NextPhaseStandard := by
  intro k p d hv
  have hlen : waveLen k = 4 := by simp [waveLen, hv]
  refine ⟨hlen, ?_, by simp [nextPhase, patternOf, hv, wave], fun hk => patternOf_inside hk _ d⟩
  have hindex := nextIndex_toNat k p d
  rw [hlen] at hindex
  rw [nextPhase, hindex]
  split <;> rfl

/-- Settles O17: at length 2 one up and one down are the same index, the other of 0 and 1. -/
theorem nextPhasePrototype : Obligations.NextPhasePrototype := by
  intro k p d hv hp
  have hlen : waveLen k = 2 := by simp [waveLen, hv]
  have hindex : (nextPhase k p d).1.toNat = (p.toNat + 1) % 2 := by
    have h := nextIndex_toNat k p d
    rwa [hlen, ite_self] at h
  have hother : (nextPhase k p d).1 ≠ p := fun h => by
    rw [h] at hindex
    omega
  exact ⟨hlen, hindex, hother, by simp [nextPhase, patternOf, hv, protoPattern], fun hk => patternOf_inside hk _ d⟩

/-! ### The strobe pair (R103, R133) -/

/-- `Emit` writes the bus twice and nothing else. -/
theorem emit_eq (tick : Option Time) (b : Byte) (s : State) : emit tick b s = { s with
    busOut := b, trace := s.trace ++ [⟨b ||| s.cfg.strobeBit, tick⟩, ⟨b, tick⟩] } := by
  simp [emit, busWrite]

/-- A byte inside a mask holds no bit of a byte that is clear there. -/
theorem and_eq_zero_of_inside {x m b : Byte} (hx : x &&& ~~~m = 0) (hb : b &&& m = 0) : x &&& b = 0 := by
  rw [← (inside_iff x m).mp hx, BitVec.and_assoc, BitVec.and_comm m, hb]
  exact BitVec.and_zero

/-- With legal parameters the strobe bit is clear in every command byte (R103). -/
theorem commandByte_and_strobeBit {k : Config} (hk : k.valid = true) {b : Byte} (hb : CommandByte k b) :
    b &&& k.strobeBit = 0 := by
  obtain ⟨p, c, hp, rfl⟩ := hb
  obtain ⟨-, -, -, haddr, hcoil, -⟩ := Config.valid_iff.mp hk
  rw [BitVec.and_or_distrib_right, and_eq_zero_of_inside hp hcoil,
    and_eq_zero_of_inside (addrOf_inside_mask hk c) haddr]
  exact BitVec.or_self

/-- Adding bits that are clear in `b` changes those bits and no others. -/
theorem or_xor_of_and_eq_zero {b m : Byte} (h : b &&& m = 0) : (b ||| m) ^^^ b = m := by
  ext i hi
  have hbit : (b[i] && m[i]) = false := by simpa using congrArg (fun x : Byte => x[i]) h
  rw [BitVec.getElem_xor, BitVec.getElem_or]
  revert hbit
  cases b[i] <;> cases m[i] <;> decide

/-- Settles O18: the two writes in turn (`emit_eq`), and a command byte has the strobe bit clear, because pattern and
address lie inside masks that do. -/
theorem emitIsStrobePair : Obligations.EmitIsStrobePair := by
  refine fun s tick b => ⟨emit_eq tick b s, fun hk hb => ?_⟩
  have hclear := commandByte_and_strobeBit hk hb
  exact ⟨hclear, or_xor_of_and_eq_zero hclear⟩

/-! ### Load, pulse and tick (R136 to R141) -/

/-- Settles O20: the record of the channel becomes the loaded one (`loadChannel_loaded`) and no other is written. -/
theorem loadEffect : Obligations.LoadEffect := by
  intro s c delta
  refine ⟨?_, fun d hd => ?_, rfl⟩
  · rw [load_ch, Six.get_set_self]
    exact loadChannel_loaded delta _
  · rw [load_ch, Six.get_set_ne _ _ hd]

/-- Settles O19: the record becomes the pulsed one (`pulsedChannel_stepped`), after the strobe pair of its byte
(`emit_eq`). -/
theorem pulseEffect : Obligations.PulseEffect := by
  intro s now c hsteps
  have hself : (pulse now c s).ch.get c = pulsedChannel s.cfg (s.ch.get c) := by rw [pulse_ch, Six.get_set_self]
  refine ⟨hself ▸ pulsedChannel_stepped _ _ hsteps, by rw [hself]; rfl, fun d hd => ?_, ?_⟩
  · rw [pulse_ch, Six.get_set_ne _ _ hd]
  · rw [pulse, emit_eq]
    rfl

/-- Each active channel puts one strobe pair on the bus. -/
theorem tickEvents_length (now : Time) (s : State) : (tickEvents now s).length =
    2 * ([Chan.c1, .c2, .c3, .c4, .c5, .c6].countP fun c => decide (0 < (s.ch.get c).stepsLeft.toNat)) := by
  have hpair : ∀ c, (pulseEvents s.cfg now (s.ch.get c)).length = 2 := fun _ => rfl
  simp only [tickEvents, List.length_flatMap, hpair, List.map_const', List.sum_replicate, smul_eq_mul,
    List.countP_eq_length_filter, Nat.mul_comm]

/-- Settles O21: the records by `tickBody_ticked`, the bus and the frame by `tickBody_eq`. -/
theorem tickBodyEffect : Obligations.TickBodyEffect :=
  fun s now => ⟨tickBody_ticked now s, tickEvents_length now s, tickBody_eq s now⟩

/-! ### The end of a drive (R134, R140) -/

/-- Settles O22: all are done iff no channel has steps left (`allDone_iff`), and a sum of counts is 0 iff each is. -/
theorem allDoneIsZeroSum : Obligations.AllDoneIsZeroSum := by
  intro s
  have hcount : ∀ c, ¬ HasSteps s c ↔ (s.ch.get c).stepsLeft.toNat = 0 := fun c => by
    rw [HasSteps, Nat.pos_iff_ne_zero, not_not]
  rw [allDone_iff]
  refine ⟨forall_congr' fun c => ?_, ?_⟩
  · rw [hcount, ← BitVec.toNat_inj]
    rfl
  · have hsum : (scanOrder.map fun c => (s.ch.get c).stepsLeft.toNat).sum = 0 ↔
        ∀ c, (s.ch.get c).stepsLeft.toNat = 0 := by
      simp [List.sum_eq_zero_iff]
    exact (forall_congr' hcount).trans hsum.symm

/-- A step that ends a blocking command is its completion: while steps are left the engine keeps `busy`. -/
theorem engine_of_completion {s : State} (hs : s.busy ≠ .none) (ht : (engine s).busy = .none) :
    engine s = complete s := by
  rcases driving_or_finished hs with h | h
  · have hbusy := (engine_of_driving h).busy
    rw [sampleNow_busy, ht] at hbusy
    exact absurd hbusy.symm hs
  · exact engine_of_finished h

/-- The end of a TICK that stops the drive idles the bus. -/
theorem stopIfDone_busOut {s : State} (hs : s.asyncState = .running) (ht : (stopIfDone s).asyncState = .stopped) :
    (stopIfDone s).busOut = s.cfg.idleByte := by
  unfold stopIfDone at ht ⊢
  split
  · rfl
  · next hdone => simp [hdone, hs] at ht

/-- Settles O50: the completion, the TICK that stops the drive and TORQUE each end with the idle write. -/
theorem completionIdlesBus : Obligations.CompletionIdlesBus := by
  refine ⟨fun s t hr hs hstep ht => ?_, fun s t he hs ht => ?_, fun e s t he => ?_⟩
  · rw [step_of_busy hr hs] at hstep
    cases hstep
    rw [engine_of_completion (s := { s with rstIn := s.rstIn.tail }) hs ht]
    rfl
  · rcases exec_tick_cases he with ⟨hn, -⟩ | ⟨-, -, rfl⟩ | ⟨-, -, rfl⟩
    · exact absurd hs hn
    · simp [hs] at ht
    · have hrunning : (tickBody (sampleNow s).1 (sampleNow s).2).asyncState = .running := by simp [hs]
      rw [respond_asyncState] at ht
      rw [respond_busOut, stopIfDone_busOut hrunning ht, tickBody_cfg, sampleNow_cfg]
  · cases he
    obtain ⟨hcfg, -⟩ := torque_cfg_ch e s
    rw [← hcfg]
    rfl

end Sys2Proof.Proofs.Primitives
end

section
/-!
The obligations about the configuration and offset commands (41_config_offset_commands.md).
-/

namespace Sys2Proof.Proofs.Configure

open Sys2Proof.Machine Sys2Proof.Proofs.StateInvariants

/-! ### SET_SPEED (R160) -/

theorem exec_setSpeed_of_ne_zero {rpm : Rpm} (h : rpm ≠ 0) (s : State) :
    exec (.setSpeed rpm) s = .next (respond true 0 (setInterval (intervalOf s.cfg rpm) s)) := if_neg h

theorem exec_setSpeed_zero (s : State) : exec (.setSpeed 0) s = .fault .speedZero := rfl

/-- Settles O25: the two branches of the command; where it answers, the next gate reads the interval it wrote
(`exec_setSpeed_next`), and at 48 steps a revolution a speed of 50 gives 60000 / 48 / 50 = 25. -/
theorem setSpeedResult : Obligations.SetSpeedResult := by
  refine fun rpm s => ⟨fun h => exec_setSpeed_of_ne_zero h s, ?_, fun now t he => ?_, by decide, fun hsteps => ?_⟩
  · rintro rfl
    exact exec_setSpeed_zero s
  · rw [exec_setSpeed_next he]
    rfl
  · rw [intervalOf, hsteps]
    rfl

/-! ### GET_OFFSETS and RESET_OFFSETS (R161, R162) -/

/-- Lane k of the packed offsets is the offset of channel k: what lies below the lane is dropped, then what lies above
it; nothing lies above lane 6. -/
theorem packOffsets_lane (s : State) (c : Chan) :
    (packOffsets s).extractLsb' (32 * ((chanNumber c).toNat - 1)) 32 = (s.ch.get c).offset := by
  unfold packOffsets
  cases c with
  | c1 | c2 | c3 | c4 | c5 =>
    repeat rw [BitVec.extractLsb'_append_eq_of_le (by decide)]
    rw [BitVec.extractLsb'_append_eq_of_add_le (by decide)]
    exact BitVec.extractLsb'_eq_self
  | c6 =>
    iterate 5 rw [BitVec.extractLsb'_append_eq_of_le (by decide)]
    exact BitVec.extractLsb'_eq_self

/-- Settles O26: the data is the packed offsets (`packOffsets_lane`). -/
theorem getOffsetsResult : Obligations.GetOffsetsResult :=
  ⟨by decide, fun s => ⟨packOffsets s, rfl, packOffsets_lane s⟩⟩

/-- Settles O27: zeroing the offsets writes the channel records and nothing else (`clearOffsets_writes_ch`). -/
theorem resetOffsetsResult : Obligations.ResetOffsetsResult := by
  refine ⟨by decide, fun s => ?_⟩
  obtain ⟨ch, hclear, hget⟩ := clearOffsets_writes_ch s
  refine ⟨respond true 0 { s with ch := ch }, ?_, hget, rfl⟩
  rw [← hclear]
  rfl

end Sys2Proof.Proofs.Configure
end

section
/-!
The obligations about the blocking drive commands (42_blocking_drive_commands.md), part 1: what an acceptance does, and
what a step of the engine does and leaves. The engine is one loop: a poll ticks the channels its command drives, the one
it names or all six.
-/

namespace Sys2Proof.Proofs.Drive

open Sys2Proof.Machine Sys2Proof.Proofs.StateInvariants Sys2Proof.Proofs.Interfaces Sys2Proof.Proofs.Primitives

/-! ### Acceptance (R180 to R183) -/

theorem exec_driveOne_of_ne_zero (c : Chan) {steps : Delta} (h : steps ≠ 0) (s : State) :
    exec (.driveOne (chanNumber c) steps) s = .next (setBusy (.one c) (load c steps s)) := by
  simp only [exec, execDriveOne, chanOfNumber_chanNumber, if_neg h]

theorem exec_driveAll (targets : Lanes) (s : State) :
    exec (.driveAll targets) s = .next (setBusy .all (loadAll targets s)) := rfl

/-- Settles O28: the numbers 0 and 7 name no channel, and a channel that is named is not loaded with 0 steps. -/
theorem ignoredDriveOne : Obligations.IgnoredDriveOne := by
  rintro chan steps s (rfl | rfl | rfl)
  · rfl
  · rfl
  · simp only [exec, execDriveOne]
    split <;> rfl

/-- Settles O29: the channel is loaded (`loadChannel_loaded`) and no other is written. -/
theorem driveOneAccepted : Obligations.DriveOneAccepted := by
  intro c steps s h
  refine ⟨_, exec_driveOne_of_ne_zero c h s, ?_, fun d hd => ?_, rfl⟩
  · rw [setBusy_ch, load_ch, Six.get_set_self]
    exact loadChannel_loaded steps _
  · rw [setBusy_ch, load_ch, Six.get_set_ne _ _ hd]

/-- Settles O30: the loads write the channel records only, each as `loadChannel_loaded` says. -/
theorem driveAllAccepted : Obligations.DriveAllAccepted := by
  intro targets s
  refine ⟨_, exec_driveAll targets s, fun c => ?_, rfl⟩
  rw [setBusy_ch, loadAll_get]
  exact loadChannel_loaded _ _

/-! ### The sample of `rst` a step consumes (R270) -/

/-- `s` with this step's sample of `rst` consumed. -/
def rstTaken (s : State) : State := { s with rstIn := s.rstIn.tail }

theorem rstTaken_of_nil {s : State} (h : s.rstIn = []) : rstTaken s = s := by
  rw [rstTaken, h, List.tail_nil, ← h]

/-- A clock sample is the same whatever `rst` is. -/
theorem sampleNow_rstTaken (s : State) :
    sampleNow (rstTaken s) = ((sampleNow s).1, { (sampleNow s).2 with rstIn := s.rstIn.tail }) := by
  rcases hn : s.nowIn with _ | ⟨now, rest⟩ <;> simp [rstTaken, sampleNow, hn]

theorem step_eq_engine {s : State} (hr : RstLow s) (hb : s.busy ≠ .none) : step s = .next (engine (rstTaken s)) :=
  step_of_busy hr hb

/-! ### A poll of the channels driven (R183) -/

/-- The channels a command in progress drives. -/
def driven : Busy → List Chan
  | .none => []
  | .one c => [c]
  | .all => scanOrder

theorem driven_nodup (b : Busy) : (driven b).Nodup := by
  cases b with
  | none => exact List.nodup_nil
  | one c => exact List.nodup_singleton c
  | all => exact scanOrder_nodup

theorem driving_iff (s : State) : Driving s ↔ ∃ c ∈ driven s.busy, HasSteps s c := by
  unfold Driving
  rcases hb : s.busy with _ | c | _ <;> simp [driven]

theorem finished_iff (s : State) : Finished s ↔ s.busy ≠ .none ∧ ∀ c ∈ driven s.busy, ¬ HasSteps s c := by
  unfold Finished
  rcases hb : s.busy with _ | c | _ <;> simp [driven]

/-- The tick of sample `now` over the channels that the command in progress drives. -/
def tickDriven (now : Time) (s : State) : State :=
  (driven s.busy).foldl (pulseIfActive now) (setLastStepTime now s)

theorem tickDriven_of_one {c : Chan} {s : State} (hb : s.busy = .one c) (hc : HasSteps s c) (now : Time) :
    tickDriven now s = tickOne c now s := by
  rw [tickDriven, hb]
  exact if_pos ((active_iff s c).mpr hc)

theorem tickDriven_of_all {s : State} (hb : s.busy = .all) (now : Time) : tickDriven now s = tickBody now s := by
  rw [tickDriven, hb]
  rfl

/-- With steps left a step of the engine is a poll of the channels driven. -/
theorem engine_eq_poll {s : State} (h : Driving s) : engine s = poll tickDriven s := by
  rcases h with ⟨c, hb, hc⟩ | ⟨hb, hc⟩
  · have hb' : (sampleNow s).2.busy = .one c := (sampleNow_busy s).trans hb
    have hc' : HasSteps (sampleNow s).2 c := by rwa [HasSteps, sampleNow_ch]
    rw [engine_of_one hb, if_pos ((active_iff s c).mpr hc), poll, poll, tickDriven_of_one hb' hc']
  · have hb' : (sampleNow s).2.busy = .all := (sampleNow_busy s).trans hb
    have hdone : ¬ allDone s = true := fun hd => not_exists.mpr ((allDone_iff s).mp hd) hc
    rw [engine_of_all hb, if_neg hdone, poll, poll, tickDriven_of_all hb']

theorem engine_of_gateClosed {s : State} (h : Driving s)
    (hg : mayStep (sampleNow s).1 s.lastStepTime s.interval = false) : engine s = (sampleNow s).2 := by
  rw [engine_eq_poll h, poll, gateOpen_sampleNow, gateOpen, hg]
  rfl

theorem engine_of_gateOpen {s : State} (h : Driving s)
    (hg : mayStep (sampleNow s).1 s.lastStepTime s.interval = true) : engine s = tickDriven (sampleNow s).1 (sampleNow s).2 := by
  rw [engine_eq_poll h, poll, gateOpen_sampleNow, gateOpen, hg]
  rfl

/-- A poll takes a sample, and with the gate open makes the tick. -/
theorem engine_poll_cases {s : State} (h : Driving s) :
    engine s = (sampleNow s).2 ∨ engine s = tickDriven (sampleNow s).1 (sampleNow s).2 := by
  cases hg : mayStep (sampleNow s).1 s.lastStepTime s.interval with
  | false => exact .inl (engine_of_gateClosed h hg)
  | true => exact .inr (engine_of_gateOpen h hg)

/-- What a step of the engine can be: nothing, the completion, or a poll without or with the tick. -/
theorem engine_cases (s : State) : engine s = s ∨ engine s = complete s ∨ engine s = (sampleNow s).2 ∨
    engine s = tickDriven (sampleNow s).1 (sampleNow s).2 := by
  by_cases hb : s.busy = .none
  · exact .inl (engine_of_none hb)
  rcases driving_or_finished hb with h | h
  · exact .inr (.inr (engine_poll_cases h))
  · exact .inr (.inl (engine_of_finished h))

/-! ### The steps of the engine (R183) -/

/-- The tick of a DRIVE_ONE, with every field it writes in closed form. -/
theorem tickOne_eq_frame (c : Chan) (now : Time) (s : State) : tickOne c now s = { s with
    ch := s.ch.set c (pulsedChannel s.cfg (s.ch.get c)), lastStepTime := now
    busOut := pulseByte s.cfg (s.ch.get c), trace := s.trace ++ pulseEvents s.cfg now (s.ch.get c) } := by
  rw [tickOne_eq, pulse, emit_eq]
  rfl

theorem mayStep_rstTaken (s : State) :
    mayStep (sampleNow (rstTaken s)).1 (rstTaken s).lastStepTime (rstTaken s).interval =
      mayStep (sampleNow s).1 s.lastStepTime s.interval := by
  rw [sampleNow_rstTaken]
  rfl

/-- A step with the gate closed takes the sample. -/
theorem step_of_gateClosed {s : State} (hr : RstLow s) (h : Driving s)
    (hg : mayStep (sampleNow s).1 s.lastStepTime s.interval = false) :
    step s = .next { (sampleNow s).2 with rstIn := s.rstIn.tail } := by
  rw [step_eq_engine hr h.busy_ne_none, engine_of_gateClosed (s := rstTaken s) h ((mayStep_rstTaken s).trans hg),
    sampleNow_rstTaken]

/-- A step with the gate open takes the sample and makes its tick over the channels driven. -/
theorem step_of_gateOpen {s : State} (hr : RstLow s) (h : Driving s)
    (hg : mayStep (sampleNow s).1 s.lastStepTime s.interval = true) :
    step s = .next (tickDriven (sampleNow s).1 { (sampleNow s).2 with rstIn := s.rstIn.tail }) := by
  rw [step_eq_engine hr h.busy_ne_none, engine_of_gateOpen (s := rstTaken s) h ((mayStep_rstTaken s).trans hg),
    sampleNow_rstTaken]

theorem step_of_finished {s : State} (hr : RstLow s) (h : Finished s) : step s = .next (complete (rstTaken s)) := by
  rw [step_eq_engine hr h.busy_ne_none, engine_of_finished (s := rstTaken s) h]

/-- Settles O31: with steps left a step is a poll, closed (`step_of_gateClosed`) or open (`step_of_gateOpen`) with the
tick of its command; with none left it is the completion (`step_of_finished`). -/
theorem engineSteps : Obligations.EngineSteps := by
  intro s hr now s₁ done
  have hcfg : s₁.cfg = s.cfg := sampleNow_cfg s
  have hch : s₁.ch = s.ch := sampleNow_ch s
  have htrace : s₁.trace = s.trace := sampleNow_trace s
  have hbusy : s₁.busy = s.busy := sampleNow_busy s
  refine ⟨fun c hb hc => ?_, fun c hb hc => step_of_finished hr (.inl ⟨c, hb, hc⟩), fun hb hc => ?_,
    fun hb hc => step_of_finished hr (.inr ⟨hb, hc⟩)⟩
  · have hd : Driving s := .inl ⟨c, hb, hc⟩
    refine ⟨step_of_gateClosed hr hd, fun hg => ⟨tickOne c now s₁, ?_, ?_, fun d hd => ?_, ?_⟩⟩
    · have hc₁ : HasSteps s₁ c := by rwa [HasSteps, hch]
      rw [step_of_gateOpen hr hd hg, tickDriven_of_one (hbusy.trans hb) hc₁]
    · rw [tickOne_eq_frame, hch, hcfg, Six.get_set_self]
      exact pulsedChannel_stepped _ _ hc
    · rw [tickOne_eq_frame, hch, hcfg, Six.get_set_ne _ _ hd]
    · rw [tickOne_eq_frame, hch, hcfg, htrace]
  · have hd : Driving s := .inr ⟨hb, hc⟩
    refine ⟨step_of_gateClosed hr hd, fun hg => ⟨tickBody now s₁, ?_, ?_, ?_⟩⟩
    · rw [step_of_gateOpen hr hd hg, tickDriven_of_all (hbusy.trans hb)]
    · have hticked := tickBody_ticked now s₁
      simpa only [TickedAll, HasSteps, hch, hcfg] using hticked
    · have hevents : tickEvents now s₁ = tickEvents now s := by simp only [tickEvents, hch, hcfg]
      have hbus : s₁.busOut = s.busOut := sampleNow_busOut s
      rw [tickBody_eq, hevents, htrace, hbus]

/-! ### What a step of the engine leaves (R180, R182, R208) -/

/-- A tick pulses those of the channels driven that have steps left. -/
theorem tickDriven_get (now : Time) (s : State) (c : Chan) :
    (tickDriven now s).ch.get c =
      if c ∈ driven s.busy ∧ active s c = true then pulsedChannel s.cfg (s.ch.get c) else s.ch.get c :=
  (foldl_pulse now (driven s.busy) (setLastStepTime now s) (driven_nodup s.busy)).1 c

/-- A tick writes the channel records, the bus and the time of the last tick, and nothing else. -/
theorem tickDriven_frame (now : Time) (s : State) :
    ∃ ch tr b, tickDriven now s = { s with ch := ch, lastStepTime := now, trace := tr, busOut := b } :=
  (foldl_pulse now (driven s.busy) (setLastStepTime now s) (driven_nodup s.busy)).2.2

/-- `t` has the parameters, the AsyncState, the interval and the coming samples of `rst` of `s`. -/
structure SameSettings (s t : State) : Prop where
  cfg : t.cfg = s.cfg
  asyncState : t.asyncState = s.asyncState
  interval : t.interval = s.interval
  rstIn : t.rstIn = s.rstIn

theorem engine_sameSettings (s : State) : SameSettings s (engine s) := by
  rcases engine_cases s with he | he | he | he
  · rw [he]
    exact ⟨rfl, rfl, rfl, rfl⟩
  · rw [he]
    exact ⟨rfl, rfl, rfl, rfl⟩
  · rw [he]
    exact ⟨sampleNow_cfg s, sampleNow_asyncState s, sampleNow_interval s, sampleNow_rstIn s⟩
  · obtain ⟨ch, tr, b, hframe⟩ := tickDriven_frame (sampleNow s).1 (sampleNow s).2
    rw [he, hframe]
    exact ⟨sampleNow_cfg s, sampleNow_asyncState s, sampleNow_interval s, sampleNow_rstIn s⟩

theorem engine_get_of_not_driven {s : State} {c : Chan} (hc : c ∉ driven s.busy) :
    (engine s).ch.get c = s.ch.get c := by
  rcases engine_cases s with he | he | he | he <;> rw [he]
  · rw [complete_ch]
  · rw [sampleNow_ch]
  · rw [tickDriven_get, sampleNow_busy, if_neg fun h => hc h.1, sampleNow_ch]

/-- Settles O45: a step of the engine leaves the settings (`engine_sameSettings`), moves records by pulses, those of the
channels driven only, and keeps `busy` and the responses unless it is the completion. -/
theorem engineLeavesTheRest : Obligations.EngineLeavesTheRest := by
  intro s hb hr
  obtain ⟨hcfg, hasync, hinterval, -⟩ := engine_sameSettings (rstTaken s)
  refine ⟨engine (rstTaken s), step_eq_engine hr hb, hasync, hinterval, hcfg,
    fun c => direction_address_of_moved (engine_moved (rstTaken s) c), fun c d hc hd => ?_, ?_⟩
  · refine engine_get_of_not_driven (s := rstTaken s) fun hmem => hd ?_
    have hbusy : (rstTaken s).busy = .one c := hc
    rw [hbusy] at hmem
    exact List.mem_singleton.mp hmem
  · rcases driving_or_finished (s := rstTaken s) hb with h | h
    · have hpoll := engine_of_driving h
      exact .inl ⟨hpoll.busy.trans (sampleNow_busy _), hpoll.responses.trans (sampleNow_responses _)⟩
    · rw [engine_of_finished h]
      exact .inr rfl

end Sys2Proof.Proofs.Drive
end

section
/-!
The obligations about the blocking drive commands (42_blocking_drive_commands.md), part 2: runs of the engine under a
clock that keeps opening the gate, and under one that stands still (R185).
-/

namespace Sys2Proof.Proofs.Drive

open Sys2Proof.Machine Sys2Proof.Proofs.StateInvariants Sys2Proof.Proofs.Interfaces

/-- With no `rst` sample listed, a step with a command in progress is one of the engine. -/
theorem step_of_busy_of_nil {s : State} (hrst : s.rstIn = []) (hb : s.busy ≠ .none) : step s = .next (engine s) := by
  rw [step_eq_engine (by simp [RstLow, hrst]) hb, rstTaken_of_nil hrst]

theorem sampleNow_of_listed {s : State} {now : Time} {rest : List Time} (h : s.nowIn = now :: rest) :
    sampleNow s = (now, { s with nowIn := rest }) := by
  simp only [sampleNow, h]

/-! ### A stopped clock (R185, R283) -/

/-- At the time of the last tick the gate is closed, unless the interval is 0. -/
theorem mayStep_self {n : Interval} (hn : n ≠ 0) (t : Time) : mayStep t t n = false := by
  have hpos : n.toNat ≠ 0 := fun h => hn (BitVec.eq_of_toNat_eq h)
  simp only [mayStep, BitVec.sub_self, BitVec.toNat_zero, Nat.le_zero, hpos, decide_false]

/-- Settles O35: each sample finds the gate closed (`mayStep_self`), so a step only consumes it. -/
theorem stoppedClockBlocksForever : Obligations.StoppedClockBlocksForever := by
  intro s n
  induction n generalizing s with
  | zero =>
    intro _ _ hnow _
    have hnil : s.nowIn = [] := hnow
    rw [run_zero, ← hnil]
  | succ n ih =>
    intro hrst hint hnow h
    have hd : Driving s := h
    have hs := sampleNow_of_listed hnow
    have hclosed : engine s = { s with nowIn := List.replicate n s.lastStepTime } := by
      rw [engine_of_gateClosed hd (hs ▸ mayStep_self hint _), hs]
    rw [run_succ_of_step (step_of_busy_of_nil hrst hd.busy_ne_none), hclosed]
    exact ih { s with nowIn := List.replicate n s.lastStepTime } hrst hint rfl h

/-! ### A paced clock (R185) -/

/-- The largest count among the channels driven is `n`. -/
def DueIn (n : Nat) (s : State) : Prop :=
  (∀ c ∈ driven s.busy, (s.ch.get c).stepsLeft.toNat ≤ n) ∧ ∃ c ∈ driven s.busy, (s.ch.get c).stepsLeft.toNat = n

theorem DueIn.finished {s : State} (h : DueIn 0 s) : Finished s := by
  obtain ⟨hle, c, hc, -⟩ := h
  refine (finished_iff s).mpr ⟨fun hb => ?_, fun d hd hpos => absurd (hle d hd) (Nat.not_le.mpr hpos)⟩
  rw [hb] at hc
  exact List.not_mem_nil hc

theorem DueIn.driving {n : Nat} {s : State} (h : DueIn (n + 1) s) : Driving s := by
  obtain ⟨-, c, hc, hleft⟩ := h
  exact (driving_iff s).mpr ⟨c, hc, by rw [HasSteps, hleft]; exact n.succ_pos⟩

/-- A tick takes one step off the count of each channel driven that has any. -/
theorem tickDriven_stepsLeft (now : Time) (s : State) {c : Chan} (hc : c ∈ driven s.busy) :
    ((tickDriven now s).ch.get c).stepsLeft.toNat = (s.ch.get c).stepsLeft.toNat - 1 := by
  rw [tickDriven_get]
  by_cases ha : active s c = true
  · obtain ⟨hfall, -⟩ := pulsedChannel_stepped s.cfg (s.ch.get c) ((active_iff s c).mp ha)
    rw [if_pos ⟨hc, ha⟩]
    omega
  · have hzero : ¬ 0 < (s.ch.get c).stepsLeft.toNat := fun h => ha ((active_iff s c).mpr h)
    rw [if_neg fun h => ha h.2]
    omega

theorem tickDriven_busy (now : Time) (s : State) : (tickDriven now s).busy = s.busy := by
  obtain ⟨ch, tr, b, hframe⟩ := tickDriven_frame now s
  rw [hframe]

/-- A tick leaves one tick less to do. -/
theorem dueIn_tickDriven {n : Nat} {s : State} (h : DueIn (n + 1) s) (now : Time) : DueIn n (tickDriven now s) := by
  obtain ⟨hle, c, hc, hleft⟩ := h
  unfold DueIn
  rw [tickDriven_busy]
  refine ⟨fun d hd => ?_, c, hc, ?_⟩
  · rw [tickDriven_stepsLeft now s hd]
    exact Nat.sub_le_of_le_add (hle d hd)
  · rw [tickDriven_stepsLeft now s hc, hleft, Nat.add_sub_cancel]

/-- The drive is in progress for `n` steps and completes with the next one, the last listed sample recorded and ok
answered. -/
def CompletesAfter (n : Nat) (s : State) : Prop :=
  (∀ m t, m ≤ n → run m s = .next t → t.busy = s.busy) ∧
  ∃ t, run (n + 1) s = .next t ∧ t.busy = .none ∧ t.lastStepTime = (s.nowIn.getLast?).getD s.lastStepTime ∧
    t.responses = s.responses ++ [{ ok := true, data := 0 }]

theorem completesAfter_of_finished {s : State} (hrst : s.rstIn = []) (hnow : s.nowIn = []) (h : Finished s) :
    CompletesAfter 0 s := by
  refine ⟨fun m t hm hrun => ?_, complete s, ?_, rfl, ?_, rfl⟩
  · obtain rfl := Nat.le_zero.mp hm
    cases hrun
    rfl
  · rw [run_succ_of_step (step_of_busy_of_nil hrst h.busy_ne_none), engine_of_finished h, run_zero]
  · rw [hnow]
    rfl

/-- A step that records its sample and keeps `busy` and the responses puts the completion off by one. -/
theorem completesAfter_of_step {n : Nat} {s u : State} (hstep : step s = .next u) (hbusy : u.busy = s.busy)
    (hresp : u.responses = s.responses) (hnow : s.nowIn = u.lastStepTime :: u.nowIn) (h : CompletesAfter n u) :
    CompletesAfter (n + 1) s := by
  obtain ⟨hdriving, t, hrun, ht, hlast, hanswer⟩ := h
  refine ⟨fun m t hm hrun => ?_, t, ?_, ht, ?_, hresp ▸ hanswer⟩
  · cases m with
    | zero => cases hrun; rfl
    | succ m =>
      rw [run_succ_of_step hstep] at hrun
      exact (hdriving m t (Nat.le_of_succ_le_succ hm) hrun).trans hbusy
  · rw [run_succ_of_step hstep, hrun]
  · rw [hlast, hnow, List.getLast?_cons, Option.getD_some]

/-- A drive that needs `n` ticks completes after them, if the clock lists `n` samples that each open the gate. -/
theorem completesAfter_of_paced (n : Nat) (s : State) (hrst : s.rstIn = []) (hlen : s.nowIn.length = n)
    (hpaced : Paced s.interval s.lastStepTime s.nowIn) (hdue : DueIn n s) : CompletesAfter n s := by
  induction n generalizing s with
  | zero => exact completesAfter_of_finished hrst (List.length_eq_zero_iff.mp hlen) hdue.finished
  | succ n ih =>
    obtain ⟨now, rest, hnow⟩ := List.exists_cons_of_length_eq_add_one hlen
    rw [hnow] at hpaced hlen
    obtain ⟨hopen, hpaced⟩ := hpaced
    have hd := hdue.driving
    have hs := sampleNow_of_listed hnow
    have hstep : step s = .next (tickDriven now { s with nowIn := rest }) := by
      rw [step_of_busy_of_nil hrst hd.busy_ne_none, engine_of_gateOpen hd (hs ▸ hopen), hs]
    have hless := dueIn_tickDriven (s := { s with nowIn := rest }) hdue now
    obtain ⟨ch, tr, b, hframe⟩ := tickDriven_frame now { s with nowIn := rest }
    rw [hframe] at hstep hless
    exact completesAfter_of_step hstep rfl rfl hnow (ih _ hrst (Nat.succ.inj hlen) hpaced hless)

/-- Settles O34: each sample is a tick that leaves one less to do (`dueIn_tickDriven`), whether one channel is driven or
all; with none to do the next step completes the drive. -/
theorem pacedDriveCompletes : Obligations.PacedDriveCompletes := by
  intro s n hrst hlen hpaced hdrive
  refine completesAfter_of_paced n s hrst hlen hpaced ?_
  unfold DueIn
  rcases hdrive with ⟨c, hb, hleft⟩ | ⟨hb, hle, c, hleft⟩
  · simp [hb, driven, hleft]
  · rw [hb]
    exact ⟨fun d _ => hle d, c, mem_scanOrder c, hleft⟩

end Sys2Proof.Proofs.Drive
end

section
/-!
The obligations about the blocking drive commands (42_blocking_drive_commands.md), part 3: what a completed drive has
put on the bus (R184). Pulses on the bus are accounted for against the counts, as an invariant of every operation but a
load; the bytes of a drive against the counts of the channels it drives.
-/

namespace Sys2Proof.Proofs.Drive

open Sys2Proof.Machine Sys2Proof.Proofs.StateInvariants Sys2Proof.Proofs.Interfaces Sys2Proof.Proofs.Primitives
  Sys2Proof.Proofs.Encoding

/-! ### Pulses on the bus (R136, R184) -/

theorem pulsesOn_append (k : Config) (c : Chan) (l m : List BusEvent) :
    pulsesOn k c (l ++ m) = pulsesOn k c l + pulsesOn k c m := List.countP_append

/-- A write that belongs to no tick is no pulse. -/
theorem pulsesOn_untagged (k : Config) (c : Chan) {l : List BusEvent} (h : ∀ e ∈ l, e.tick = none) :
    pulsesOn k c l = 0 := by
  refine List.countP_eq_zero.mpr fun e he => ?_
  simp [isPulseOf, h e he]

theorem strobeBit_ne_zero {k : Config} (hk : k.valid = true) : k.strobeBit ≠ 0#8 := by
  obtain ⟨-, -, hmem, -⟩ := Config.valid_iff.mp hk
  have hbits : ∀ b ∈ oneBitBytes, b ≠ 0#8 := by simp [oneBitBytes]
  exact hbits _ hmem

/-- The write that asserts the strobe is not counted as a pulse. -/
theorem isPulseOf_strobed {k : Config} (hk : k.valid = true) (c : Chan) (b : Byte) (tick : Option Time) :
    isPulseOf k c ⟨b ||| k.strobeBit, tick⟩ = false := by
  have habsorb : (b ||| k.strobeBit) &&& k.strobeBit = k.strobeBit := by
    rw [BitVec.and_or_distrib_right, BitVec.and_self]
    ext i hi
    cases hbit : k.strobeBit[i] <;> simp [hbit]
  simp [isPulseOf, habsorb, strobeBit_ne_zero hk]

/-- The address field of a command byte is its channel's. -/
theorem pattern_or_address_and_addrMask {k : Config} (hk : k.valid = true) {p : Byte} (hp : p &&& ~~~k.coilMask = 0)
    (c : Chan) : (p ||| addrOf k c) &&& k.addrMask = addrOf k c := by
  obtain ⟨-, -, -, -, -, hmasks, -⟩ := Config.valid_iff.mp hk
  rw [BitVec.and_or_distrib_right, (inside_iff _ _).mp (addrOf_inside_mask hk c), and_eq_zero_of_inside hp hmasks]
  exact BitVec.zero_or

/-- The de-asserted write of a tick is a pulse of the channel addressed, and of no other. -/
theorem isPulseOf_deasserted {k : Config} (hk : k.valid = true) {p : Byte} (hp : p &&& ~~~k.coilMask = 0)
    (c d : Chan) (now : Time) : isPulseOf k d ⟨p ||| addrOf k c, some now⟩ = decide (d = c) := by
  have hstrobe := commandByte_and_strobeBit hk ⟨p, c, hp, rfl⟩
  have hinj : addrOf k c = addrOf k d ↔ d = c := (addrOf_injective hk).eq_iff.trans eq_comm
  simp [isPulseOf, hstrobe, pattern_or_address_and_addrMask hk hp, hinj, Bool.beq_eq_decide_eq]

theorem pulseByte_eq_pattern_or_address {k : Config} (hk : k.valid = true) {x : Channel} {c : Chan}
    (hx : x.address = addrOf k c) : ∃ p, p &&& ~~~k.coilMask = 0 ∧ pulseByte k x = p ||| addrOf k c :=
  ⟨_, patternOf_inside hk _ x.direction, congrArg (_ ||| ·) hx⟩

/-- The strobe pair of a pulse is one pulse of its channel. -/
theorem pulsesOn_pulseEvents {k : Config} (hk : k.valid = true) {x : Channel} {c : Chan} (hx : x.address = addrOf k c)
    (d : Chan) (now : Time) : pulsesOn k d (pulseEvents k now x) = if d = c then 1 else 0 := by
  obtain ⟨p, hp, hbyte⟩ := pulseByte_eq_pattern_or_address hk hx
  simp [pulsesOn, pulseEvents, hbyte, isPulseOf_strobed hk, isPulseOf_deasserted hk hp, List.countP_cons]

/-! ### The account of pulses (R184) -/

/-- On legal records under the parameters `k`, the pulses of channel `c` on the bus and those still to come make
`total c`. -/
def PulsesAccounted (k : Config) (total : Chan → Nat) (s : State) : Prop :=
  LegalOn k s ∧ ∀ c, pulsesOn k c s.trace + (s.ch.get c).stepsLeft.toNat = total c

/-- Untagged writes leave the account as it was. -/
theorem pulsesAccounted_of_untagged {k : Config} {total : Chan → Nat} {s t : State} {l : List BusEvent}
    (hcfg : t.cfg = s.cfg) (hch : t.ch = s.ch) (htrace : t.trace = s.trace ++ l) (hl : ∀ e ∈ l, e.tick = none)
    (hs : PulsesAccounted k total s) : PulsesAccounted k total t := by
  obtain ⟨⟨hk, hlegal⟩, hsum⟩ := hs
  refine ⟨⟨hcfg.trans hk, fun c => hch ▸ hlegal c⟩, fun c => ?_⟩
  rw [htrace, hch, pulsesOn_append, pulsesOn_untagged k c hl, Nat.add_zero, hsum]

theorem pulsesAccounted_idle {k : Config} {total : Chan → Nat} {s : State} (hs : PulsesAccounted k total s) :
    PulsesAccounted k total (idle s) :=
  pulsesAccounted_of_untagged (idle_cfg s) (idle_ch s) (idle_trace s) (by simp) hs

/-- Every operation but a load keeps the account: a pulse moves one step from the count to the bus, and what the others
write belongs to no tick. -/
theorem pulsesAccounted_kept {k : Config} (hk : k.valid = true) (total : Chan → Nat) :
    Kept (PulsesAccounted k total) where
  inputs _ _ _ _ _ hs := hs
  answered _ _ _ hs := hs
  intervalSet _ _ hs := hs
  asyncSet _ _ hs := hs
  busySet _ _ hs := hs
  timeSet _ _ hs := hs
  idled _ hs := pulsesAccounted_idle hs
  torqued s e hs := by
    refine torque_keeps (fun s e c _ hs => ?_) (fun s hs => pulsesAccounted_idle hs) e hs
    exact pulsesAccounted_of_untagged (emit_cfg ..) (emit_ch ..) (emit_trace ..) (by simp) hs
  pulsed s now c hc hs := by
    obtain ⟨hlegal, hsum⟩ := hs
    refine ⟨(legalOn_kept k).pulsed s now c hc hlegal, fun d => ?_⟩
    obtain ⟨rfl, hch⟩ := hlegal
    have hpulse := pulsesOn_pulseEvents hk (address_of_channelLegal (hch c)) d now
    obtain ⟨hfall, -⟩ := pulsedChannel_stepped s.cfg (s.ch.get c) hc
    have htrace : (pulse now c s).trace = s.trace ++ pulseEvents s.cfg now (s.ch.get c) := pulse_trace ..
    rw [htrace, pulsesOn_append, hpulse, pulse_ch, Six.get_set, ← hsum d]
    split
    · next hd => subst hd; omega
    · rw [Nat.add_zero]

/-! ### The account of writes (R184) -/

/-- The steps that the channels driven still have to do. -/
def stepsToDo (s : State) : Nat := ((driven s.busy).map fun c => (s.ch.get c).stepsLeft.toNat).sum

/-- One off every number that is not 0 takes as many off the sum. -/
theorem sum_pred_add_countP {α : Type} (g : α → Nat) (l : List α) :
    (l.map fun c => g c - 1).sum + l.countP (fun c => decide (0 < g c)) = (l.map g).sum := by
  induction l with
  | nil => rfl
  | cons c l ih =>
    rw [List.map_cons, List.map_cons, List.sum_cons, List.sum_cons, List.countP_cons, ← ih]
    simp only [decide_eq_true_eq]
    split <;> omega

theorem tickDriven_trace (now : Time) (s : State) : (tickDriven now s).trace =
    s.trace ++ ((driven s.busy).filter (active s)).flatMap fun c => pulseEvents s.cfg now (s.ch.get c) :=
  (foldl_pulse now (driven s.busy) (setLastStepTime now s) (driven_nodup s.busy)).2.1

/-- A tick writes two bytes for each step it takes. -/
theorem tickDriven_writes (now : Time) (s : State) :
    (tickDriven now s).trace.length + 2 * stepsToDo (tickDriven now s) = s.trace.length + 2 * stepsToDo s := by
  have hleft : stepsToDo (tickDriven now s) = ((driven s.busy).map fun c => (s.ch.get c).stepsLeft.toNat - 1).sum := by
    rw [stepsToDo, tickDriven_busy]
    exact congrArg List.sum (List.map_congr_left fun c hc => tickDriven_stepsLeft now s hc)
  have hpair : ∀ c, (pulseEvents s.cfg now (s.ch.get c)).length = 2 := fun _ => rfl
  have hcount := sum_pred_add_countP (fun c => (s.ch.get c).stepsLeft.toNat) (driven s.busy)
  have hlen : (tickDriven now s).trace.length =
      s.trace.length + (driven s.busy).countP (fun c => decide (0 < (s.ch.get c).stepsLeft.toNat)) * 2 := by
    rw [tickDriven_trace, List.length_append, List.length_flatMap]
    simp only [hpair, List.map_const', List.sum_replicate, smul_eq_mul, List.countP_eq_length_filter]
    rfl
  rw [hleft, hlen, stepsToDo]
  omega

/-- A poll writes two bytes for each step it takes. -/
theorem engine_writes {s : State} (h : Driving s) :
    (engine s).trace.length + 2 * stepsToDo (engine s) = s.trace.length + 2 * stepsToDo s := by
  have hsample : stepsToDo (sampleNow s).2 = stepsToDo s := by
    rw [stepsToDo, sampleNow_busy, sampleNow_ch, stepsToDo]
  rcases engine_poll_cases h with he | he
  · rw [he, hsample, sampleNow_trace]
  · rw [he, tickDriven_writes, hsample, sampleNow_trace]

/-! ### The steps to come and the offset (R24, R138) -/

theorem offsetAtEnd_of_moved {k : Config} {x y : Channel} (h : Moved k x y) : offsetAtEnd y = offsetAtEnd x := by
  rcases h with rfl | ⟨hpos, rfl⟩
  · rfl
  · exact offsetAtEnd_pulsedChannel hpos

theorem offsetAtEnd_of_no_steps {x : Channel} (h : x.stepsLeft = 0) : offsetAtEnd x = x.offset := by
  unfold offsetAtEnd
  cases x.direction <;> simp [h]

theorem loadChannel_stepsLeft_toNat (d : Delta) (x : Channel) : (loadChannel d x).stepsLeft.toNat = d.toInt.natAbs :=
  magnitude_toNat d

theorem zeroExtend_magnitude (d : Delta) : (magnitude d).zeroExtend 32 = BitVec.ofInt 32 (d.toInt.natAbs : Int) := by
  refine BitVec.eq_of_toNat_eq ?_
  rw [BitVec.ofInt_natCast, BitVec.toNat_setWidth, BitVec.toNat_ofNat, magnitude_toNat]

/-- A load sets out to move the offset by the delta: up by it when positive, down by its magnitude when negative. -/
theorem offsetAtEnd_loadChannel (d : Delta) (x : Channel) :
    offsetAtEnd (loadChannel d x) = x.offset + d.signExtend 32 := by
  have hsign : d.signExtend 32 = BitVec.ofInt 32 d.toInt := rfl
  unfold offsetAtEnd
  rw [loadChannel_direction, loadChannel_offset, loadChannel_stepsLeft, zeroExtend_magnitude, hsign]
  rcases lt_trichotomy d.toInt 0 with hneg | hzero | hpos
  · have hdir : loadDirection d x.direction = .ccw := by simp [loadDirection, hneg, hneg.le]
    rw [hdir, Int.ofNat_natAbs_of_nonpos hneg.le, BitVec.ofInt_neg]
    exact BitVec.sub_neg
  · rw [hzero]
    cases loadDirection d x.direction <;> simp
  · have hdir : loadDirection d x.direction = .cw := by simp [loadDirection, hpos]
    rw [hdir, Int.natAbs_of_nonneg hpos.le]

/-! ### The run of a drive (R183) -/

/-- With nothing in progress and nothing presented, a run waits. -/
theorem run_of_waiting {s : State} (hb : s.busy = .none) (hrst : s.rstIn = []) (hcmd : s.cmdIn = []) (n : Nat) :
    run n s = .next s := by
  have hstep : step s = .next s := by
    rw [step_of_waiting (by simp [RstLow, hrst]) hb hcmd]
    exact congrArg _ (rstTaken_of_nil hrst)
  induction n with
  | zero => rfl
  | succ n ih => rw [run_succ_of_step hstep, ih]

/-- A run that has ended a blocking command is one of polls up to the completion, and of waiting after it; so what polls
keep holds where the command completes. -/
theorem completed_of_run {P : State → Prop} (hP : ∀ s, Driving s → P s → P (engine s)) {n : Nat} {s t : State}
    (hs : P s) (hb : s.busy ≠ .none) (hrst : s.rstIn = []) (hcmd : s.cmdIn = []) (hrun : run n s = .next t)
    (ht : t.busy = .none) : ∃ u, P u ∧ Finished u ∧ t = complete u := by
  induction n generalizing s with
  | zero =>
    cases hrun
    exact absurd ht hb
  | succ n ih =>
    rw [run_succ_of_step (step_of_busy_of_nil hrst hb)] at hrun
    rcases driving_or_finished hb with hd | hfin
    · have hpoll := engine_of_driving hd
      have hbusy : (engine s).busy = s.busy := hpoll.busy.trans (sampleNow_busy s)
      have hcmd' : (engine s).cmdIn = [] := (hpoll.cmdIn.trans (sampleNow_cmdIn s)).trans hcmd
      exact ih (hP s hd hs) (hbusy ▸ hb) ((engine_sameSettings s).rstIn.trans hrst) hcmd' hrun
    · rw [engine_of_finished hfin, run_of_waiting (complete_busy s) hrst hcmd] at hrun
      cases hrun
      exact ⟨s, hs, hfin, rfl⟩

/-! ### What a drive has done, underway and completed (R184) -/

/-- The pulses of channel `c` on the bus and those still to come. -/
def pulsesInAll (s : State) (c : Chan) : Nat := pulsesOn s.cfg c s.trace + (s.ch.get c).stepsLeft.toNat

/-- How far the drive that `s` had accepted has come in `u`. -/
structure Underway (s u : State) : Prop where
  busy : u.busy = s.busy
  settings : SameSettings s u
  responses : u.responses = s.responses
  pulses : PulsesAccounted s.cfg (pulsesInAll s) u
  offset : ∀ c, offsetAtEnd (u.ch.get c) = offsetAtEnd (s.ch.get c)
  others : ∀ c ∉ driven s.busy, u.ch.get c = s.ch.get c
  writes : u.trace.length + 2 * stepsToDo u = s.trace.length + 2 * stepsToDo s

theorem underway_self {s : State} (hs : LegalOn s.cfg s) : Underway s s :=
  ⟨rfl, ⟨rfl, rfl, rfl, rfl⟩, rfl, ⟨hs, fun _ => rfl⟩, fun _ => rfl, fun _ _ => rfl, rfl⟩

theorem SameSettings.trans {s t u : State} (h : SameSettings s t) (h' : SameSettings t u) : SameSettings s u :=
  ⟨h'.cfg.trans h.cfg, h'.asyncState.trans h.asyncState, h'.interval.trans h.interval, h'.rstIn.trans h.rstIn⟩

/-- A poll carries the drive on. -/
theorem underway_engine {s u : State} (hk : s.cfg.valid = true) (hd : Driving u) (h : Underway s u) :
    Underway s (engine u) := by
  have hpoll := engine_of_driving hd
  exact {
    busy := (hpoll.busy.trans (sampleNow_busy u)).trans h.busy
    settings := h.settings.trans (engine_sameSettings u)
    responses := (hpoll.responses.trans (sampleNow_responses u)).trans h.responses
    pulses := (pulsesAccounted_kept hk _).engineStep h.pulses
    offset := fun c => (offsetAtEnd_of_moved (engine_moved u c)).trans (h.offset c)
    others := fun c hc => (engine_get_of_not_driven (h.busy ▸ hc)).trans (h.others c hc)
    writes := (engine_writes hd).trans h.writes }

/-- What R184 and R208 say of a state `t` in which the drive that `s` had accepted has completed. -/
structure DriveDone (s t : State) : Prop where
  pulses : ∀ c, pulsesOn s.cfg c t.trace + (t.ch.get c).stepsLeft.toNat = pulsesInAll s c
  offset : ∀ c, offsetAtEnd (t.ch.get c) = offsetAtEnd (s.ch.get c)
  stepsLeft : ∀ c ∈ driven s.busy, (t.ch.get c).stepsLeft = 0
  others : ∀ c ∉ driven s.busy, t.ch.get c = s.ch.get c
  writes : t.trace.length = s.trace.length + 2 * stepsToDo s + 1
  busOut : t.busOut = s.cfg.idleByte
  asyncState : t.asyncState = s.asyncState
  responses : t.responses = s.responses ++ [{ ok := true, data := 0 }]

theorem driveDone_complete {s u : State} (hk : s.cfg.valid = true) (h : Underway s u) (hu : Finished u) :
    DriveDone s (complete u) := by
  obtain ⟨-, hpulses⟩ := (pulsesAccounted_kept hk _).completed h.pulses
  obtain ⟨-, hidle⟩ := (finished_iff u).mp hu
  have hzero : ∀ c ∈ driven u.busy, (u.ch.get c).stepsLeft.toNat = 0 := fun c hc => Nat.eq_zero_of_not_pos (hidle c hc)
  have hnone : stepsToDo u = 0 := List.sum_eq_zero_iff.mpr fun x hx => by
    obtain ⟨c, hc, rfl⟩ := List.mem_map.mp hx
    exact hzero c hc
  exact {
    pulses := hpulses
    offset := h.offset
    stepsLeft := fun c hc => BitVec.eq_of_toNat_eq (hzero c (h.busy ▸ hc))
    others := h.others
    writes := by
      have hw := h.writes
      rw [complete_trace, List.length_append, List.length_singleton]
      omega
    busOut := congrArg Config.idleByte h.settings.cfg
    asyncState := h.settings.asyncState
    responses := congrArg (· ++ _) h.responses }

/-! ### From the word presented to the completion (R184) -/

/-- A step accepts the one word presented, with no `rst` sample listed. -/
theorem step_of_presented {s : State} {i : Instr} (hb : s.busy = .none) (hrst : s.rstIn = [])
    (hcmd : s.cmdIn = [encode i]) : step s = exec i { s with cmdIn := [] } := by
  have htail : s.rstIn.tail = s.rstIn := by rw [hrst, List.tail_nil]
  rw [step_of_word (by simp [RstLow, hrst]) hb hcmd, accept_of_command _ (decodeOfEncode i), htail]

theorem exec_keeps_inputs {i : Instr} {s t : State} (he : exec i s = .next t) :
    t.cfg = s.cfg ∧ t.rstIn = s.rstIn ∧ t.cmdIn = s.cmdIn := by
  obtain ⟨-, -, -, -, -, -, -, -, -, -, hinputs⟩ := commandsWriteOnlyTheirState i s t he
  exact hinputs

/-- A drive presented alone, once accepted in `a` and completed in `t`, has done what R184 says. -/
theorem driveDone_of_run {i : Instr} {n : Nat} {s t a : State} (hs : Legal s) (hb : s.busy = .none) (hrst : s.rstIn = [])
    (hcmd : s.cmdIn = [encode i]) (hi : exec i { s with cmdIn := [] } = .next a) (ha : a.busy ≠ .none)
    (hrun : run n s = .next t) (htcmd : t.cmdIn = []) (ht : t.busy = .none) : DriveDone a t := by
  obtain ⟨hk, hlegal⟩ := (legal_iff s).mp hs
  obtain ⟨hcfg, hrst', hcmd'⟩ := exec_keeps_inputs hi
  have hk' : a.cfg.valid = true := hcfg ▸ hk
  have hlegal' : LegalOn a.cfg a := hcfg ▸ (legalOn_kept s.cfg).exec (s := { s with cmdIn := [] }) hlegal hi
  cases n with
  | zero =>
    cases hrun
    rw [hcmd] at htcmd
    cases htcmd
  | succ n =>
    rw [run_succ_of_step ((step_of_presented hb hrst hcmd).trans hi)] at hrun
    obtain ⟨u, hu, hfin, rfl⟩ := completed_of_run (fun v => underway_engine hk') (underway_self hlegal') ha
      (hrst'.trans hrst) hcmd' hrun ht
    exact driveDone_complete hk' hu hfin

/-- Settles O32: the drive underway accounts for its pulses, its offset and its bytes (`underway_engine`), so when it has
completed (`driveDone_of_run`) they are those of the load. -/
theorem driveOneIssuesExactPulses : Obligations.DriveOneIssuesExactPulses := by
  intro s t c steps n hs hb hrst hsteps hcmd hrun htcmd ht
  let a := setBusy (.one c) (load c steps { s with cmdIn := [] })
  have hdone : DriveDone a t := driveDone_of_run hs hb hrst hcmd (exec_driveOne_of_ne_zero c hsteps _)
    Busy.noConfusion hrun htcmd ht
  have hself : a.ch.get c = loadChannel steps (s.ch.get c) := Six.get_set_self ..
  have hothers : ∀ d, d ≠ c → a.ch.get d = s.ch.get d := fun d hd => Six.get_set_ne _ _ hd
  have hzero : (t.ch.get c).stepsLeft = 0 := hdone.stepsLeft c (List.mem_singleton_self c)
  have hkept : ∀ d, d ≠ c → t.ch.get d = s.ch.get d := fun d hd =>
    (hdone.others d fun hmem => hd (List.mem_singleton.mp hmem)).trans (hothers d hd)
  have hwork : stepsToDo a = (a.ch.get c).stepsLeft.toNat := List.sum_singleton
  rw [hself, loadChannel_stepsLeft_toNat] at hwork
  refine ⟨fun d => ?_, hzero, ?_, hkept, ?_, hdone.busOut, hdone.asyncState, hdone.responses⟩
  · have hpulses : pulsesOn s.cfg d t.trace + (t.ch.get d).stepsLeft.toNat =
        pulsesOn s.cfg d s.trace + (a.ch.get d).stepsLeft.toNat := hdone.pulses d
    split
    · next hd =>
      subst hd
      rw [hself, hzero, loadChannel_stepsLeft_toNat] at hpulses
      exact hpulses
    · next hd =>
      rw [hothers d hd, hkept d hd] at hpulses
      exact Nat.add_right_cancel hpulses
  · rw [← offsetAtEnd_of_no_steps hzero, hdone.offset c, hself, offsetAtEnd_loadChannel]
  · rw [hdone.writes, hwork]
    rfl

/-- Settles O33: as for one channel, with all six loaded (`loadAll_writes_ch`) and all six driven. -/
theorem driveAllIssuesExactPulses : Obligations.DriveAllIssuesExactPulses := by
  intro s t targets n hs hb hrst hcmd hrun htcmd ht
  obtain ⟨ch, hframe, hloaded⟩ := loadAll_writes_ch targets { s with cmdIn := [] }
  have haccept : exec (.driveAll targets) { s with cmdIn := [] } =
      .next { s with ch := ch, cmdIn := [], busy := .all } := by
    rw [exec_driveAll, hframe]
    rfl
  have hdone := driveDone_of_run hs hb hrst hcmd haccept Busy.noConfusion hrun htcmd ht
  have hleft : ∀ c, (ch.get c).stepsLeft.toNat = (targets.get c).toInt.natAbs := fun c => by
    rw [hloaded, loadChannel_stepsLeft_toNat]
  refine ⟨fun c => ?_, ?_, hdone.busOut, hdone.asyncState, hdone.responses⟩
  · have hzero : (t.ch.get c).stepsLeft = 0 := hdone.stepsLeft c (mem_scanOrder c)
    have hpulses := hdone.pulses c
    refine ⟨?_, hzero, ?_⟩
    · rw [hzero, pulsesInAll, hleft] at hpulses
      exact hpulses
    · rw [← offsetAtEnd_of_no_steps hzero, hdone.offset c, hloaded, offsetAtEnd_loadChannel]
  · rw [hdone.writes, stepsToDo, funext hleft]
    rfl

end Sys2Proof.Proofs.Drive
end

section
/-!
The obligations about the asynchronous drive commands (43_async_commands.md), part 1: what each command does and leaves,
and the state machine of the drive.
-/

namespace Sys2Proof.Proofs.Async

open Sys2Proof.Machine Sys2Proof.Proofs.StateInvariants Sys2Proof.Proofs.Interfaces Sys2Proof.Proofs.Drive

/-! ### TICK (R200) -/

theorem exec_tick_of_not_running {s : State} (h : s.asyncState ≠ .running) :
    exec .tick s = .next (respond true 0 s) := by
  cases ha : s.asyncState with
  | running => exact absurd ha h
  | stopped | paused => simp [exec, execTick, ha]

theorem exec_tick_of_running {s : State} (h : s.asyncState = .running) :
    exec .tick s = .next (respond true 0 (tickRunning s)) := by simp [exec, execTick, h]

theorem tickRunning_of_gateClosed {s : State} (hg : mayStep (sampleNow s).1 s.lastStepTime s.interval = false) :
    tickRunning s = (sampleNow s).2 := by
  rw [tickRunning, gateOpen_sampleNow, gateOpen, if_neg (ne_true_of_eq_false hg)]

theorem tickRunning_of_gateOpen {s : State} (hg : mayStep (sampleNow s).1 s.lastStepTime s.interval = true) :
    tickRunning s = stopIfDone (tickBody (sampleNow s).1 (sampleNow s).2) := by
  rw [tickRunning, gateOpen_sampleNow, gateOpen, if_pos hg]

/-- The sample taken before a tick changes nothing that its bus events depend on. -/
theorem tickEvents_sampleNow (now : Time) (s : State) : tickEvents now (sampleNow s).2 = tickEvents now s := by
  simp only [tickEvents, sampleNow_ch, sampleNow_cfg]

/-- The tick of TICK, with every field it writes but the channel records in closed form. -/
theorem tickBody_sampleNow_eq (now : Time) (s : State) : tickBody now (sampleNow s).2 = { (sampleNow s).2 with
    ch := (tickBody now (sampleNow s).2).ch, lastStepTime := now, trace := s.trace ++ tickEvents now s
    busOut := lastByte (tickEvents now s) s.busOut } := by
  have h := tickBody_eq (sampleNow s).2 now
  rwa [tickEvents_sampleNow, sampleNow_trace, sampleNow_busOut] at h

theorem tickBody_sampleNow_ticked (now : Time) (s : State) : TickedAll now s (tickBody now (sampleNow s).2) := by
  have h := tickBody_ticked now (sampleNow s).2
  simpa only [TickedAll, HasSteps, sampleNow_ch, sampleNow_cfg] using h

/-- A tick is told by the channel records and the time of the last tick alone. -/
theorem ticked_of_same {now : Time} {s t u : State} (h : TickedAll now s u) (hch : t.ch = u.ch)
    (htime : t.lastStepTime = u.lastStepTime) : TickedAll now s t := by
  unfold TickedAll
  rw [hch, htime]
  exact h

/-- Settles O36: not Running, only the response; Running, a poll, whose tick ends in the test for completion
(`stopIfDone`): with a channel still active it changes nothing, with none it stops the drive and idles the bus. -/
theorem tickResult : Obligations.TickResult := by
  refine ⟨by decide, fun s => ⟨exec_tick_of_not_running, fun hr hg => ?_, fun hr hg => ?_⟩⟩
  · rw [exec_tick_of_running hr, tickRunning_of_gateClosed hg, respond, sampleNow_responses]
  · rw [exec_tick_of_running hr, tickRunning_of_gateOpen hg]
    have hticked := tickBody_sampleNow_ticked (sampleNow s).1 s
    have hbody := tickBody_sampleNow_eq (sampleNow s).1 s
    generalize tickBody (sampleNow s).1 (sampleNow s).2 = u at hticked hbody ⊢
    have hactive : ∀ c, HasSteps (respond true 0 (stopIfDone u)) c ↔ HasSteps u c := fun c => by
      rw [HasSteps, respond_ch, stopIfDone_ch, HasSteps]
    refine ⟨_, rfl, ticked_of_same hticked (stopIfDone_ch u) (stopIfDone_lastStepTime u), fun ⟨c, hc⟩ => ?_,
      fun hnone => ?_⟩
    · have hleft : ¬ allDone u = true := fun hdone => (allDone_iff u).mp hdone c ((hactive c).mp hc)
      rw [stopIfDone, if_neg hleft, hbody]
      simp [respond]
    · have hdone : allDone u = true := (allDone_iff u).mpr fun c hc => hnone c ((hactive c).mpr hc)
      rw [stopIfDone, if_pos hdone, hbody]
      simp [respond, idle, busWrite, setAsync]

/-! ### START, PAUSE, RESUME and STOP (R201 to R204) -/

/-- Settles O37: the loads write the channel records only (`loadAll_writes_ch`), each as `loadChannel_loaded` says. -/
theorem startResult : Obligations.StartResult := by
  refine ⟨by decide, fun targets s => ?_⟩
  obtain ⟨ch, hload, hget⟩ := loadAll_writes_ch targets s
  refine ⟨respond true 0 (setAsync .running { s with ch := ch }), ?_, fun c => ?_, rfl⟩
  · rw [← hload]
    rfl
  · exact hget c ▸ loadChannel_loaded (targets.get c) (s.ch.get c)

theorem exec_pause_of_asyncState {s : State} {a : AsyncState} (h : s.asyncState = a) :
    exec .pause s = .next (respond (transitionOk a) 0 (setAsync (afterPause a) s)) := by
  subst h
  rfl

theorem exec_resume_of_asyncState {s : State} {a : AsyncState} (h : s.asyncState = a) :
    exec .resume s = .next (respond (transitionOk a) 0 (setAsync (afterResume a) s)) := by
  subst h
  rfl

theorem setAsync_self {s : State} {a : AsyncState} (h : s.asyncState = a) : setAsync a s = s := by subst h; rfl

/-- Settles O38: the AsyncState and the answer by `afterPause` and `transitionOk`; where the AsyncState stays, writing
it again changes nothing. -/
theorem pauseResult : Obligations.PauseResult := by
  refine ⟨by decide, fun s => ⟨fun h => ?_, fun h => ?_, fun h => ?_⟩⟩ <;> rw [exec_pause_of_asyncState h]
  · rfl
  · rw [afterPause, setAsync_self h]
    rfl
  · rw [afterPause, setAsync_self h]
    rfl

/-- Settles O39: as for PAUSE, with `afterResume`. -/
theorem resumeResult : Obligations.ResumeResult := by
  refine ⟨by decide, fun s => ⟨fun h => ?_, fun h => ?_, fun h => ?_⟩⟩ <;> rw [exec_resume_of_asyncState h]
  · rfl
  · rw [afterResume, setAsync_self h]
    rfl
  · rw [afterResume, setAsync_self h]
    rfl

/-- Settles O40: STOP writes the AsyncState and the response. -/
theorem stopResult : Obligations.StopResult := ⟨by decide, fun _ => rfl⟩

/-! ### The state machine (R207, R208) -/

/-- A TICK in `s` completes the drive: Running, the gate open, and no channel with more than one step left. -/
def CompletedByTick (s : State) : Prop :=
  s.asyncState = .running ∧ gateOpen (sampleNow s).1 s = true ∧ ∀ c, (s.ch.get c).stepsLeft.toNat ≤ 1

/-- A TICK that completes the drive stops it with no channel active; any other leaves the AsyncState. -/
theorem exec_tick_asyncState {s t : State} (he : exec .tick s = .next t) :
    (CompletedByTick s ∧ t.asyncState = .stopped ∧ ∀ c, ¬ HasSteps t c) ∨
    (¬ CompletedByTick s ∧ t.asyncState = s.asyncState) := by
  rcases exec_tick_cases he with ⟨hn, rfl⟩ | ⟨-, hg, rfl⟩ | ⟨hr, hg, rfl⟩
  · exact .inr ⟨fun h => hn h.1, rfl⟩
  · exact .inr ⟨fun ⟨_, hopen, _⟩ => by simp [hg] at hopen, sampleNow_asyncState s⟩
  · have hall := allDone_tickBody (sampleNow s).2 (sampleNow s).1
    rw [sampleNow_ch] at hall
    rw [respond_asyncState, stopIfDone_asyncState]
    split
    · next hdone =>
      refine .inl ⟨⟨hr, hg, hall.mp hdone⟩, rfl, fun c => ?_⟩
      rw [HasSteps, respond_ch, stopIfDone_ch]
      exact (allDone_iff _).mp hdone c
    · next hdone =>
      refine .inr ⟨fun ⟨_, _, hle⟩ => hdone (hall.mpr hle), ?_⟩
      rw [tickBody_asyncState, sampleNow_asyncState]

/-- A step of the engine, a wait and an illegal word leave the AsyncState. -/
theorem step_asyncState_of_no_command {s t : State} (hr : RstLow s) (hstep : step s = .next t)
    (h : s.busy ≠ .none ∨ ∀ w ∈ s.cmdIn.head?, IllegalWord w) : t.asyncState = s.asyncState := by
  by_cases hb : s.busy = .none
  · have hillegal := h.resolve_left (not_not.mpr hb)
    rcases hc : s.cmdIn with _ | ⟨w, rest⟩
    · rw [step_of_waiting hr hb hc] at hstep
      cases hstep
      rfl
    · rw [step_of_word hr hb hc, accept_of_illegalWord _ (hillegal w (by simp [hc]))] at hstep
      cases hstep
      rfl
  · rw [step_eq_engine hr hb] at hstep
    cases hstep
    exact (engine_sameSettings (rstTaken s)).asyncState

/-- Settles O41: START and STOP write one value, PAUSE and RESUME go by `afterPause` and `afterResume`, TICK by
`exec_tick_asyncState`; no other command writes the AsyncState (`commandsWriteOnlyTheirState`), and no step that accepts
none (`step_asyncState_of_no_command`). -/
theorem asyncStateMachine : Obligations.AsyncStateMachine := by
  refine ⟨fun s => ?_, fun s t targets he => ?_, fun s t he => ?_, fun s t he => ?_, fun s t he => ?_, fun s t he => ?_,
    fun i s t he hi hstart => ?_, fun s t => step_asyncState_of_no_command⟩
  · cases h : s.asyncState <;> simp [asyncStateOut, asyncCode, h]
  · cases he
    rfl
  · cases he
    cases h : s.asyncState <;> simp [afterPause]
  · cases he
    cases h : s.asyncState <;> simp [afterResume]
  · cases he
    rfl
  · change (t.asyncState ≠ s.asyncState ↔ CompletedByTick s) ∧ _
    rcases exec_tick_asyncState he with ⟨hdone, hstop, -⟩ | ⟨hnot, hsame⟩
    · have hrunning : s.asyncState = .running := hdone.1
      simp [hdone, hstop, hrunning]
    · simp [hnot, hsame]
  · obtain ⟨-, -, -, -, -, hasync, -⟩ := commandsWriteOnlyTheirState i s t he
    by_contra hne
    rcases hasync hne with hmem | ⟨targets, rfl⟩
    · exact hi hmem
    · exact hstart targets rfl

end Sys2Proof.Proofs.Async
end

section
/-!
The obligations about the asynchronous drive commands (43_async_commands.md), part 2: what an asynchronous drive has put
on the bus (R206). From its START on, whatever commands intervene, the pulses on the bus account for the counts, and the
drive is Stopped only with every count 0.
-/

namespace Sys2Proof.Proofs.Async

open Sys2Proof.Machine Sys2Proof.Proofs.StateInvariants Sys2Proof.Proofs.Drive Sys2Proof.Proofs.Encoding

/-! ### What intervening commands leave (R206) -/

/-- A command that intervenes leaves `busy`, and the counts unless it is TICK. -/
theorem exec_of_intervenes {i : Instr} {s t : State} (hi : intervenes i = true) (he : exec i s = .next t) :
    t.busy = s.busy ∧ (i ≠ .tick → ∀ c, (t.ch.get c).stepsLeft = (s.ch.get c).stepsLeft) := by
  obtain ⟨-, -, -, hsteps, -, -, -, hbusy, -⟩ := commandsWriteOnlyTheirState i s t he
  constructor
  · by_contra hne
    rcases hbusy hne with ⟨c, n, rfl, -⟩ | ⟨ts, rfl, -⟩ <;> cases hi
  · intro htick c
    by_contra hne
    rcases hsteps c hne with rfl | ⟨n, rfl⟩ | ⟨ts, rfl⟩ | ⟨ts, rfl⟩
    · exact htick rfl
    all_goals cases hi

/-- A channel with no steps left gets none from a command that intervenes. -/
theorem not_hasSteps_of_intervenes {i : Instr} {s t : State} (hi : intervenes i = true) (he : exec i s = .next t)
    {c : Chan} (hc : ¬ HasSteps s c) : ¬ HasSteps t c := by
  by_cases htick : i = .tick
  · subst htick
    rcases tick_moved he c with hsame | ⟨hpos, -⟩
    · rwa [HasSteps, hsame]
    · exact absurd hpos hc
  · rwa [HasSteps, (exec_of_intervenes hi he).2 htick c]

/-- The drive is Stopped only with every count 0. -/
def StoppedWhenDone (s : State) : Prop := s.asyncState = .stopped → ∀ c, ¬ HasSteps s c

/-- Where a command that intervenes leaves the drive Stopped, it found it so or no channel is active. -/
theorem stopped_of_intervenes {i : Instr} {s t : State} (hi : intervenes i = true) (he : exec i s = .next t)
    (ht : t.asyncState = .stopped) : s.asyncState = .stopped ∨ ∀ c, ¬ HasSteps t c := by
  obtain ⟨-, -, hpause, hresume, -, -, hothers, -⟩ := asyncStateMachine
  cases i with
  | tick =>
    rcases exec_tick_asyncState he with ⟨-, -, hnone⟩ | ⟨-, hsame⟩
    · exact .inr hnone
    · exact .inl (hsame ▸ ht)
  | pause =>
    refine .inl ?_
    by_contra hne
    simp [hpause s t he, hne] at ht
  | resume =>
    refine .inl ?_
    by_contra hne
    simp [hresume s t he, hne] at ht
  | setSpeed | getOffsets | resetOffsets | torque =>
    exact .inl ((hothers _ s t he (by simp) (by simp)).symm.trans ht)
  | driveOne | driveAll | start | stop => cases hi

theorem stoppedWhenDone_exec {i : Instr} {s t : State} (hi : intervenes i = true) (he : exec i s = .next t)
    (hs : StoppedWhenDone s) : StoppedWhenDone t := fun ht =>
  (stopped_of_intervenes hi he ht).elim (fun h c => not_hasSteps_of_intervenes hi he (hs h c)) id

/-- Commands that intervene keep the account of pulses; RESET_OFFSETS touches neither counts nor bus. -/
theorem pulsesAccounted_exec {k : Config} (hk : k.valid = true) {total : Chan → Nat} {i : Instr} {s t : State}
    (hi : intervenes i = true) (he : exec i s = .next t) (hs : PulsesAccounted k total s) :
    PulsesAccounted k total t := by
  cases i with
  | resetOffsets =>
    cases he
    obtain ⟨hlegal, hsum⟩ := hs
    obtain ⟨ch, hclear, hget⟩ := clearOffsets_writes_ch s
    refine ⟨(legalOn_kept k).exec (i := .resetOffsets) hlegal rfl, fun c => ?_⟩
    rw [hclear, respond_trace, respond_ch, hget]
    exact hsum c
  | setSpeed | getOffsets | tick | pause | resume | torque =>
    exact (pulsesAccounted_kept hk total).exec_request rfl hs he
  | driveOne | driveAll | start | stop => cases hi

/-! ### The drive underway (R206) -/

/-- An asynchronous drive whose pulses, on the bus and to come, make `total`, with only words to come that may
intervene. -/
structure AsyncUnderway (k : Config) (total : Chan → Nat) (s : State) : Prop where
  busy : s.busy = .none
  rstIn : s.rstIn = []
  words : ∀ w ∈ s.cmdIn, ∀ i, decode w = .command i → intervenes i = true
  pulses : PulsesAccounted k total s
  stopped : StoppedWhenDone s

theorem AsyncUnderway.exec {k : Config} (hk : k.valid = true) {total : Chan → Nat} {i : Instr} {s t : State}
    (hi : intervenes i = true) (h : AsyncUnderway k total s) (he : exec i s = .next t) : AsyncUnderway k total t := by
  obtain ⟨-, hrst, hcmd⟩ := exec_keeps_inputs he
  exact {
    busy := (exec_of_intervenes hi he).1.trans h.busy
    rstIn := hrst.trans h.rstIn
    words := hcmd ▸ h.words
    pulses := pulsesAccounted_exec hk hi he h.pulses
    stopped := stoppedWhenDone_exec hi he h.stopped }

/-- Every step carries the drive on: it waits, answers an illegal word or executes a command that intervenes. -/
theorem AsyncUnderway.step {k : Config} (hk : k.valid = true) {total : Chan → Nat} (s t : State)
    (h : AsyncUnderway k total s) (hstep : step s = .next t) : AsyncUnderway k total t := by
  have hr : RstLow s := by simp [RstLow, h.rstIn]
  have htail : s.rstIn.tail = [] := by rw [h.rstIn, List.tail_nil]
  rcases hc : s.cmdIn with _ | ⟨w, rest⟩
  · rw [step_of_waiting hr h.busy hc] at hstep
    cases hstep
    exact ⟨h.busy, htail, h.words, h.pulses, h.stopped⟩
  · have hwords := h.words
    rw [hc, List.forall_mem_cons] at hwords
    obtain ⟨hw, hrest⟩ := hwords
    have htaken : AsyncUnderway k total { s with rstIn := s.rstIn.tail, cmdIn := rest } :=
      ⟨h.busy, htail, hrest, h.pulses, h.stopped⟩
    rw [step_of_word hr h.busy hc] at hstep
    rcases hd : decode w with i | why
    · rw [accept_of_command _ hd] at hstep
      exact htaken.exec hk (hw i hd) hstep
    · rw [accept_of_illegal _ hd] at hstep
      cases hstep
      exact ⟨htaken.busy, htaken.rstIn, htaken.words, htaken.pulses, htaken.stopped⟩

/-- START sets the drive underway: it loads the magnitudes and writes no byte. -/
theorem asyncUnderway_of_start {s t : State} {targets : Lanes} (hlegal : LegalOn s.cfg s) (hb : s.busy = .none)
    (hrst : s.rstIn = []) (hwords : ∀ w ∈ s.cmdIn, ∀ i, decode w = .command i → intervenes i = true)
    (he : exec (.start targets) s = .next t) :
    AsyncUnderway s.cfg (fun c => pulsesOn s.cfg c s.trace + (targets.get c).toInt.natAbs) t := by
  have hlegal' := (legalOn_kept s.cfg).exec hlegal he
  obtain ⟨ch, hload, hget⟩ := loadAll_writes_ch targets s
  have ht : t = respond true 0 (setAsync .running { s with ch := ch }) := by
    rw [← hload]
    cases he
    rfl
  subst ht
  refine ⟨hb, hrst, hwords, ⟨hlegal', fun c => ?_⟩, AsyncState.noConfusion⟩
  rw [respond_trace, respond_ch, setAsync_trace, setAsync_ch, hget, loadChannel_stepsLeft_toNat]

/-- Settles O42: the START sets the drive underway (`asyncUnderway_of_start`) and every later step carries it on
(`AsyncUnderway.step`), so in the end the pulses are those of the load, less the counts, which are 0 once Stopped. -/
theorem asyncDriveIssuesExactPulses : Obligations.AsyncDriveIssuesExactPulses := by
  intro s t targets ws n hs hb hrst hcmd hws hrun
  obtain ⟨hk, hlegal⟩ := (legal_iff s).mp hs
  obtain ⟨u, hstart, hrun⟩ := run_succ hrun
  rw [step_of_word (by simp [RstLow, hrst]) hb hcmd, accept_of_command _ (decodeOfEncode _), hrst] at hstart
  have hstart := asyncUnderway_of_start (s := { s with rstIn := [], cmdIn := ws }) hlegal hb rfl hws hstart
  have hend := run_keeps (AsyncUnderway.step hk) n hstart hrun
  obtain ⟨-, hsum⟩ := hend.pulses
  refine ⟨hsum, fun hstop c => ?_⟩
  have hzero : (t.ch.get c).stepsLeft.toNat = 0 := Nat.eq_zero_of_not_pos (hend.stopped hstop c)
  have hpulses := hsum c
  rw [hzero, Nat.add_zero] at hpulses
  exact ⟨BitVec.eq_of_toNat_eq hzero, hpulses⟩

end Sys2Proof.Proofs.Async
end

section
/-!
The obligation about the torque command (44_torque_command.md).
-/

namespace Sys2Proof.Proofs.Torque

open Sys2Proof.Machine

theorem exec_torque (enabled : Bool) (s : State) :
    exec (.torque enabled) s = .next (respond true 0 (idle (torqueWrites enabled s))) := rfl

theorem torqueWrites_of_standard {s : State} (h : s.cfg.variant = .standard) (enabled : Bool) :
    torqueWrites enabled s = scanOrder.foldl (torqueChannel enabled) s := by
  unfold torqueWrites
  rw [h]

theorem torqueWrites_of_prototype {s : State} (h : s.cfg.variant = .prototype) (enabled : Bool) :
    torqueWrites enabled s = s := by
  unfold torqueWrites
  rw [h]

/-- Settles O43: on STANDARD the writes are the strobe pairs in scan order (`foldl_torque`), on PROTOTYPE there are
none; the idle write and the response follow. -/
theorem torqueResult : Obligations.TorqueResult := by
  refine ⟨by decide, by decide, fun enabled s => ⟨fun hv => ⟨rfl, ?_⟩, fun hv => ?_⟩⟩
  · obtain ⟨b, hwrites⟩ := foldl_torque enabled scanOrder s
    rw [exec_torque, torqueWrites_of_standard hv, hwrites]
    rfl
  · rw [exec_torque, torqueWrites_of_prototype hv]
    rfl

end Sys2Proof.Proofs.Torque
end

section
/-!
The obligation about errors and traps (60_exceptions.md): which commands answer, and what a step that does not answer
has accepted.
-/

namespace Sys2Proof.Proofs.Exceptions

open Sys2Proof.Machine Sys2Proof.Proofs.Interfaces Sys2Proof.Proofs.Configure Sys2Proof.Proofs.Drive
  Sys2Proof.Proofs.Async

/-! ### Which commands answer (R240, R242) -/

theorem wellFormed_or_eq_setSpeed_zero (i : Instr) : i.wellFormed = true ∨ i = .setSpeed 0 := by
  cases i with
  | setSpeed rpm =>
    by_cases h : rpm = 0
    · exact .inr (congrArg _ h)
    · exact .inl (decide_eq_true h)
  | _ => exact .inl rfl

theorem exec_driveOne_answers (n : BitVec 3) (steps : Delta) (s : State) :
    ∃ t, exec (.driveOne n steps) s = .next t := by
  by_cases h : steps = 0
  · exact ⟨_, ignoredDriveOne n steps s (.inr (.inr h))⟩
  · rcases hn : chanOfNumber n with _ | c
    · exact ⟨respond true 0 s, by simp only [exec, execDriveOne, hn]⟩
    · obtain rfl := eq_chanNumber_of_chanOfNumber hn
      exact ⟨_, exec_driveOne_of_ne_zero c h s⟩

theorem exec_tick_answers (s : State) : ∃ t, exec .tick s = .next t := by
  by_cases h : s.asyncState = .running
  · exact ⟨_, exec_tick_of_running h⟩
  · exact ⟨_, exec_tick_of_not_running h⟩

/-- SET_SPEED is the one command with a precondition; DRIVE_ONE and TICK answer on each of their branches, the others
have one branch. -/
theorem exec_answers_of_wellFormed {i : Instr} (h : i.wellFormed = true) (s : State) : ∃ t, exec i s = .next t := by
  cases i with
  | setSpeed rpm => exact ⟨_, exec_setSpeed_of_ne_zero (of_decide_eq_true h) s⟩
  | driveOne n steps => exact exec_driveOne_answers n steps s
  | tick => exact exec_tick_answers s
  | _ => exact ⟨_, rfl⟩

/-! ### What a step can answer (R244) -/

/-- The step of `s` accepts a SET_SPEED 0. -/
def AcceptsSpeedZero (s : State) : Prop :=
  s.busy = .none ∧ ∃ w rest, s.cmdIn = w :: rest ∧ decode w = .command (.setSpeed 0)

/-- A reset, a step of the engine, a wait and an illegal word answer, and so does every command but SET_SPEED 0. -/
theorem step_answers_or_faults (s : State) :
    (∃ t, step s = .next t) ∨ (step s = .fault .speedZero ∧ AcceptsSpeedZero s) := by
  by_cases hr : RstLow s
  · by_cases hb : s.busy = .none
    · rcases hc : s.cmdIn with _ | ⟨w, rest⟩
      · exact .inl ⟨_, step_of_waiting hr hb hc⟩
      · rw [step_of_word hr hb hc]
        rcases hd : decode w with i | why
        · rw [accept_of_command _ hd]
          rcases wellFormed_or_eq_setSpeed_zero i with hi | rfl
          · exact .inl (exec_answers_of_wellFormed hi _)
          · exact .inr ⟨exec_setSpeed_zero _, hb, w, rest, hc, hd⟩
        · exact .inl ⟨_, accept_of_illegal _ hd⟩
    · exact .inl ⟨_, step_of_busy hr hb⟩
  · obtain ⟨rest, hrst⟩ := rstIn_of_not_rstLow hr
    exact .inl ⟨_, step_of_rst hrst⟩

/-- Settles O47: a step answers or faults by accepting SET_SPEED 0 (`step_answers_or_faults`), so it never refuses; a
command that is well formed answers (`exec_answers_of_wellFormed`). -/
theorem onlySpeedZeroStops : Obligations.OnlySpeedZeroStops := by
  refine ⟨fun s f hf => ?_, fun s r hrefused => ?_, fun i s hi => exec_answers_of_wellFormed hi s⟩
  · rcases step_answers_or_faults s with ⟨t, ht⟩ | ⟨hfault, hzero⟩
    · cases ht.symm.trans hf
    · cases hfault.symm.trans hf
      exact ⟨rfl, hzero⟩
  · rcases step_answers_or_faults s with ⟨t, ht⟩ | ⟨hfault, -⟩
    · cases ht.symm.trans hrefused
    · cases hfault.symm.trans hrefused

end Sys2Proof.Proofs.Exceptions
end

section
/-!
The obligations about reset and hazards (70_reset_and_hazards.md): what a step with `rst` asserted leaves, and the
spacing of ticks. A step with `rst` low makes a tick only where its own sample has opened the gate.
-/

namespace Sys2Proof.Proofs.ResetHazards

open Sys2Proof.Machine Sys2Proof.Proofs.StateInvariants Sys2Proof.Proofs.Interfaces Sys2Proof.Proofs.Drive

/-! ### Reset (R270, R271) -/

/-- Settles O10: the step is the hardware reset (`step_of_rst`), whose fields are read off. -/
theorem resetInputResets : Obligations.ResetInputResets := by
  intro s rest hrst
  exact ⟨_, step_of_rst hrst, Six.get_of (Channel.resetOf s.cfg), rfl, rfl, rfl, rfl, rfl, rfl, rfl, rfl, rfl, rfl, rfl,
    rfl⟩

/-! ### The spacing of ticks (R290) -/

/-- The time of the last tick in `t` is at least the interval after that in `s`. -/
def TickSpaced (s t : State) : Prop := s.interval.toNat ≤ (t.lastStepTime - s.lastStepTime).toNat

/-- From `s` to `t` no tick is made: the time of the last tick and the phase indices stay, and a command in progress has
issued no step. -/
def NoTick (s t : State) : Prop :=
  t.lastStepTime = s.lastStepTime ∧ (∀ c, (t.ch.get c).phaseIndex = (s.ch.get c).phaseIndex) ∧
  (s.busy ≠ .none → ∀ c, (t.ch.get c).stepsLeft = (s.ch.get c).stepsLeft)

theorem noTick_of_same {s t : State} (htime : t.lastStepTime = s.lastStepTime) (hch : t.ch = s.ch) : NoTick s t :=
  ⟨htime, fun _ => by rw [hch], fun _ _ => by rw [hch]⟩

/-- Where the sample that a tick records has opened the gate, the ticks are spaced. -/
theorem tickSpaced_of_mayStep {s t : State} {now : Time} (hg : mayStep now s.lastStepTime s.interval = true)
    (ht : t.lastStepTime = now) : TickSpaced s t := by
  rw [TickSpaced, ht]
  exact (mayStep_iff ..).mp hg

theorem engine_noTick_or_tickSpaced (s : State) : NoTick s (engine s) ∨ TickSpaced s (engine s) := by
  by_cases hb : s.busy = .none
  · exact .inl (noTick_of_same (by rw [engine_of_none hb]) (by rw [engine_of_none hb]))
  rcases driving_or_finished hb with h | h
  · cases hg : mayStep (sampleNow s).1 s.lastStepTime s.interval with
    | false =>
      rw [engine_of_gateClosed h hg]
      exact .inl (noTick_of_same (sampleNow_lastStepTime s) (sampleNow_ch s))
    | true =>
      obtain ⟨ch, tr, b, hframe⟩ := tickDriven_frame (sampleNow s).1 (sampleNow s).2
      rw [engine_of_gateOpen h hg, hframe]
      exact .inr (tickSpaced_of_mayStep hg rfl)
  · rw [engine_of_finished h]
    exact .inl (noTick_of_same (complete_lastStepTime s) (complete_ch s))

theorem exec_tick_noTick_or_tickSpaced {s t : State} (he : exec .tick s = .next t) : NoTick s t ∨ TickSpaced s t := by
  rcases exec_tick_cases he with ⟨-, rfl⟩ | ⟨-, -, rfl⟩ | ⟨-, hg, rfl⟩
  · exact .inl (noTick_of_same rfl rfl)
  · exact .inl (noTick_of_same (sampleNow_lastStepTime s) (sampleNow_ch s))
  · exact .inr (tickSpaced_of_mayStep hg (by simp))

/-- TICK is the one command that makes a tick at its acceptance, where none is in progress. -/
theorem exec_noTick_or_tickSpaced {i : Instr} {s t : State} (hb : s.busy = .none) (he : exec i s = .next t) :
    NoTick s t ∨ TickSpaced s t := by
  by_cases hi : i = .tick
  · subst hi
    exact exec_tick_noTick_or_tickSpaced he
  · obtain ⟨-, -, hphase, -, -, -, htime, -⟩ := commandsWriteOnlyTheirState i s t he
    exact .inl ⟨not_not.mp (mt htime hi), fun c => not_not.mp fun hne => hi (hphase ⟨c, hne⟩), fun hn => absurd hb hn⟩

/-- A wait and an illegal word make no tick; a command and a step of the engine make one only at a sample that opens the
gate. -/
theorem step_noTick_or_tickSpaced {s t : State} (hr : RstLow s) (hstep : step s = .next t) :
    NoTick s t ∨ TickSpaced s t := by
  by_cases hb : s.busy = .none
  · rcases hc : s.cmdIn with _ | ⟨w, rest⟩
    · rw [step_of_waiting hr hb hc] at hstep
      cases hstep
      exact .inl (noTick_of_same rfl rfl)
    · rw [step_of_word hr hb hc] at hstep
      rcases hd : decode w with i | why
      · rw [accept_of_command _ hd] at hstep
        exact exec_noTick_or_tickSpaced (s := { s with rstIn := s.rstIn.tail, cmdIn := rest }) hb hstep
      · rw [accept_of_illegal _ hd] at hstep
        cases hstep
        exact .inl (noTick_of_same rfl rfl)
  · rw [step_eq_engine hr hb] at hstep
    cases hstep
    exact engine_noTick_or_tickSpaced (rstTaken s)

/-- Settles O49: each of the three signs of a tick excludes `NoTick`, so the step's sample has opened the gate
(`step_noTick_or_tickSpaced`). -/
theorem ticksSpacedByInterval : Obligations.TicksSpacedByInterval := by
  intro s t hr hstep hsign
  rcases step_noTick_or_tickSpaced hr hstep with ⟨htime, hphase, hcount⟩ | hspaced
  · rcases hsign with hmoved | ⟨c, hmoved⟩ | ⟨c, hissued, hb⟩
    · exact absurd htime hmoved
    · exact absurd (hphase c) hmoved
    · rw [hcount hb c] at hissued
      omega
  · exact hspaced

end Sys2Proof.Proofs.ResetHazards
end

section
/-!
The obligation about the words the command rules write out (41_config_offset_commands.md to 44_torque_command.md): each
is the encoding of the command written beside it.
-/

namespace Sys2Proof.Proofs.Encoding

open Sys2Proof.Machine

/-- Settles O5: each word is the one the layout gives its command (R91), and a command's word decodes to it
(`decode_command_iff`). -/
theorem specWordsDecode : Obligations.SpecWordsDecode := by
  simp only [Obligations.SpecWordsDecode, decode_command_iff]
  decide

end Sys2Proof.Proofs.Encoding
end
